-- ==== Sys2Proof/Word.lean ====
section
/-! DEFINITION. The words of the core: bytes, 16-bit values, millisecond counts and the 8-entry slot buffers (00_scope.md R10). -/

namespace Sys2Proof

/-- An 8-bit value: slot, command, data, CRC-8 and ROM-code bytes (R10). -/
abbrev Byte := BitVec 8

/-- A 16-bit value: the immediate, the CRC-16 value and its seed, the result value (R10, R91, R96). -/
abbrev Half := BitVec 16

/-- A value of the millisecond clock (R10: `nowMillis() -> u32`). -/
abbrev Millis := BitVec 32

/-- A slot buffer: exactly eight slot bytes (R10, R33). -/
abbrev Slots := Vector Byte 8

end Sys2Proof
end

