-- ==== Sys2Proof/Config.lean ====
section
/-! DEFINITION. The implementation parameters of 00_scope.md R9, as data, and the model's free values (constants without a body). -/

namespace Sys2Proof

/-- Which CRC-8 datapath is built (R9 `CRC8_IMPL`, R241); no result depends on it. -/
inductive Crc8Impl where
  | bitwise
  | table
deriving DecidableEq, Repr

/-- One piece of `HOST_WINDOW`: the addresses `base .. base + size - 1` (20_memory.md R61). -/
structure Region where
  base : Nat
  size : Nat
deriving DecidableEq, Repr

/-- The parameters a model takes (R9). Each literal of the source is a field, so that a proof says which
literal it depends on (92_eei_decisions.md D40). -/
structure Params where
  /-- `RESET_ATTEMPTS`, in 1..255 (R25). -/
  resetAttempts : Byte
  /-- `TIMEOUT_MS`. -/
  timeoutMs : Millis
  /-- `RESET_BYTE`. -/
  resetByte : Byte
  /-- `SLOT_ONE`: a written 1, a read slot and the "device asserts" pattern. -/
  slotOne : Byte
  /-- `SLOT_ZERO`: a written 0. -/
  slotZero : Byte
  /-- `READ_PLACEHOLDER`: what a caller puts in a command buffer for a pure read (R102); no rule of the core reads it. -/
  readPlaceholder : Byte
  /-- `SEARCH_ROM_CMD`. -/
  searchRomCmd : Byte
  /-- `CRC8_POLY_REFLECTED`. -/
  crc8Poly : Byte
  /-- `CRC16_POLY_REFLECTED`. -/
  crc16Poly : Half
  /-- `SKIP_NEVER`. -/
  skipNever : Byte
  /-- `ADDR_W`. -/
  addrW : Nat
  /-- `LEN_W`, at least 8. -/
  lenW : Nat
  /-- `HOST_WINDOW`. -/
  window : List Region
  /-- `FEATURE_SEARCH`. -/
  featureSearch : Bool
  /-- `FEATURE_CRC16`. -/
  featureCrc16 : Bool
  /-- `CRC8_IMPL`. -/
  crc8Impl : Crc8Impl
deriving DecidableEq, Repr

/-- Free value: `BAUD_RESET`, OPEN (R9, D36); no rule depends on it. -/
opaque Config.baudReset : Nat

/-- Free value: `BAUD_TRANSFER`, OPEN (R9, D36); no rule depends on it. -/
opaque Config.baudTransfer : Nat

/-- Free value: `ctx.tx[0..7]` at power-on, "any value" (10_state.md R48, 93_implementation_defined.md U12; log 4). -/
opaque Config.powerOnTx : Slots

/-- Free value: `ctx.rx[0..7]` at power-on, "any value" (R48, U12; log 4). -/
opaque Config.powerOnRx : Slots

/-- Free value: the millisecond clock at power-on, "the platform's" (60_exceptions.md R311, U13; log 5). -/
opaque Config.powerOnMillis : Millis

/-- Free value: what the `n`-th read of `ctx.rx` under a timed-out, still unfinished exchange sees,
"any value (a draw)" (20_memory.md R77, U4; log 3). -/
opaque Config.timedOutRx : Nat → Slots

end Sys2Proof
end

