-- ==== Sys2Proof/Machine/Parameters.lean ====
section
/-! DEFINITION. The reference configuration: the source's default of every parameter of 00_scope.md R9, and for the OPEN ones the reference configuration of 30_encoding.md R92 and 95_test_vectors.md section 0 (log 6). -/

namespace Sys2Proof

/-- Every parameter at its default (R9, R92). DESIGN CHOICE for `addrW`, `lenW`, `window` and
`crc8Impl`, which R9 leaves open (log 6). -/
def Params.reference : Params where
  resetAttempts := 4
  timeoutMs := 5
  resetByte := 0xF0
  slotOne := 0xFF
  slotZero := 0x00
  readPlaceholder := 0xFF
  searchRomCmd := 0xF0
  crc8Poly := 0x8C
  crc16Poly := 0xA001
  skipNever := 0xFF
  addrW := 16
  lenW := 16
  window := [⟨0, 65536⟩]
  featureSearch := true
  featureCrc16 := true
  crc8Impl := .bitwise

end Sys2Proof
end

