-- ==== Sys2Proof/Syntax.lean ====
section
/-! DEFINITION. The nine operations of spec/opcode_table.json, one constructor a row (30_encoding.md R94), with the operands R93 gives each. Addresses and lengths are natural numbers: their widths are parameters (R91) and no rule wraps them (20_memory.md R66). -/

namespace Sys2Proof

/-- One host request (R94), its unused fields dropped (R97). -/
inductive Instr where
  /-- `clearState()`, R272. -/
  | clear
  /-- `reset()`, R146. -/
  | reset
  /-- `send(cmd=a[la], data=b[lb], skip)`, R175. -/
  | send (a la b lb : Nat) (skip : Byte)
  /-- `searchDevices(out=a, max)`, R200. -/
  | search (a : Nat) (max : Byte)
  /-- `crc8(a[la])`, R242. -/
  | crc8 (a la : Nat)
  /-- `crc16(a[la], seed)`, R244. -/
  | crc16 (a la : Nat) (seed : Half)
  /-- `checkCrc16(a[la], inv=b, seed)`, R246. -/
  | checkCrc16 (a la b : Nat) (seed : Half)
  /-- `encode(v, out=a)`, R124. -/
  | encode (v : Byte) (a : Nat)
  /-- `decode(a)`, R125. -/
  | decode (a : Nat)
deriving DecidableEq, Repr

end Sys2Proof
end

