-- ==== Sys2Proof/WellFormed.lean ====
section
/-! DEFINITION. What a request record can hold (30_encoding.md R91: field widths) and what a configuration can be (00_scope.md R9, 10_state.md R25). -/

namespace Sys2Proof

/-- An address fits the record's `ADDR_W` bits (R91). -/
def Params.addrFits (p : Params) (a : Nat) : Bool := decide (a < 2 ^ p.addrW)

/-- A length fits the record's `LEN_W` bits (R91). -/
def Params.lenFits (p : Params) (n : Nat) : Bool := decide (n < 2 ^ p.lenW)

/-- The parameter ranges the spec states: `RESET_ATTEMPTS` in 1..255 (R25), `LEN_W` at least 8 (R9). -/
def Params.wf (p : Params) : Bool := decide (1 ≤ p.resetAttempts) && decide (8 ≤ p.lenW)

/-- Every operand fits its field of the request record (R91, R93). -/
def Instr.wf (p : Params) : Instr → Bool
  | .clear => true
  | .reset => true
  | .send a la b lb _ => p.addrFits a && p.lenFits la && p.addrFits b && p.lenFits lb
  | .search a _ => p.addrFits a
  | .crc8 a la => p.addrFits a && p.lenFits la
  | .crc16 a la _ => p.addrFits a && p.lenFits la
  | .checkCrc16 a la b _ => p.addrFits a && p.lenFits la && p.addrFits b
  | .encode _ a => p.addrFits a
  | .decode a => p.addrFits a

end Sys2Proof
end

