-- ==== Sys2Proof/Decode.lean ====
section
/-! DEFINITION. The request record and its packed word (30_encoding.md R91, R92), the decoder (R93 to R95, R97), total on every word and rejecting by name, and the encoder. -/

namespace Sys2Proof

/-- The request record (R91). -/
structure Req where
  op  : Byte
  imm : Half
  a   : Nat
  la  : Nat
  b   : Nat
  lb  : Nat
deriving DecidableEq, Repr

/-- Every field of the record is within its width (R91). -/
def Req.fits (p : Params) (r : Req) : Bool :=
  p.addrFits r.a && p.lenFits r.la && p.addrFits r.b && p.lenFits r.lb

/-- Why a record is rejected. -/
inductive DecodeError where
  /-- `OP` is reserved: 0x00 or 0x0A..0xFF (R95). -/
  | reservedOp (op : Byte)
deriving DecidableEq, Repr

/-- The field of `n` bits of `w` whose lowest bit is `lo` (R11 `v[hi:lo]`). -/
def bitField (w lo n : Nat) : Nat := w / 2 ^ lo % 2 ^ n

/-- The record a packed word holds (R92): `OP`, `IMM`, `A`, `LA`, `B`, `LB` from bit 0 upwards. -/
def unpack (p : Params) (w : Nat) : Req where
  op := BitVec.ofNat 8 (bitField w 0 8)
  imm := BitVec.ofNat 16 (bitField w 8 16)
  a := bitField w 24 p.addrW
  la := bitField w (24 + p.addrW) p.lenW
  b := bitField w (24 + p.addrW + p.lenW) p.addrW
  lb := bitField w (24 + p.addrW + p.lenW + p.addrW) p.lenW

/-- `IMM[7:0]` (R93). -/
def Req.immByte (r : Req) : Byte := r.imm.setWidth 8

/-- The operation a record asks for (R94), with its operands assembled (R93); a field R93 does not name
is dropped (R97). The feature-dependent codes are decoded here and checked when the request is
taken (45_control.md R270). -/
def decodeReq (r : Req) : Except DecodeError Instr :=
  match r.op.toNat with
  | 0x01 => .ok .clear
  | 0x02 => .ok .reset
  | 0x03 => .ok (.send r.a r.la r.b r.lb r.immByte)
  | 0x04 => .ok (.search r.a r.immByte)
  | 0x05 => .ok (.crc8 r.a r.la)
  | 0x06 => .ok (.crc16 r.a r.la r.imm)
  | 0x07 => .ok (.checkCrc16 r.a r.la r.b r.imm)
  | 0x08 => .ok (.encode r.immByte r.a)
  | 0x09 => .ok (.decode r.a)
  | _ => .error (.reservedOp r.op)

/-- The decoder: total on every packed word. -/
def decode (p : Params) (w : Nat) : Except DecodeError Instr := decodeReq (unpack p w)

/-- The operation code of each operation (R94). -/
def Instr.opcode : Instr → Byte
  | .clear => 0x01
  | .reset => 0x02
  | .send .. => 0x03
  | .search .. => 0x04
  | .crc8 .. => 0x05
  | .crc16 .. => 0x06
  | .checkCrc16 .. => 0x07
  | .encode .. => 0x08
  | .decode .. => 0x09

/-- The record of an operation, the fields it does not use holding 0 (R93, R104: an omitted buffer is
address 0, length 0). -/
def encodeReq (i : Instr) : Req :=
  match i with
  | .clear => ⟨i.opcode, 0, 0, 0, 0, 0⟩
  | .reset => ⟨i.opcode, 0, 0, 0, 0, 0⟩
  | .send a la b lb skip => ⟨i.opcode, skip.setWidth 16, a, la, b, lb⟩
  | .search a max => ⟨i.opcode, max.setWidth 16, a, 0, 0, 0⟩
  | .crc8 a la => ⟨i.opcode, 0, a, la, 0, 0⟩
  | .crc16 a la seed => ⟨i.opcode, seed, a, la, 0, 0⟩
  | .checkCrc16 a la b seed => ⟨i.opcode, seed, a, la, b, 0⟩
  | .encode v a => ⟨i.opcode, v.setWidth 16, a, 0, 0, 0⟩
  | .decode a => ⟨i.opcode, 0, a, 0, 0, 0⟩

/-- A record as its packed word (R92). -/
def pack (p : Params) (r : Req) : Nat :=
  r.op.toNat + r.imm.toNat * 2 ^ 8 + r.a * 2 ^ 24 + r.la * 2 ^ (24 + p.addrW)
    + r.b * 2 ^ (24 + p.addrW + p.lenW) + r.lb * 2 ^ (24 + p.addrW + p.lenW + p.addrW)

/-- The encoder: the packed word of an operation. -/
def encode (p : Params) (i : Instr) : Nat := pack p (encodeReq i)

/-- How many bits a packed word has (R92). -/
def wordBits (p : Params) : Nat := 24 + 2 * p.addrW + 2 * p.lenW

/-- The instruction the decoder reads, in the reference configuration of the opcode table's format
(88-bit record, `ADDR_W = LEN_W = 16`), from the word whose low `nbits` bits are `w`'s and whose other
bits are 0 (log 10). -/
def decodeTableWord (nbits w : Nat) : Option Instr :=
  match decode Params.reference (w % 2 ^ nbits) with
  | .ok i => some i
  | .error _ => none

end Sys2Proof
end

