-- ==== Sys2Proof/Machine/State.lean ====
section
/-! DEFINITION. The state of the core, its substrate, its host memory and the outside (10_state.md), the faults and refusals, and the state after power-on (R48, 70_reset_and_hazards.md R330). -/

namespace Sys2Proof.Machine

/-- `ctx.owner` (R22). -/
inductive Owner where
  | idle
  | reset
  | transfer
  | search
deriving DecidableEq, Repr

/-- `ctx.resetState` (R23), in the source's listed order. -/
inductive ResetState where
  | init
  | sendPresence
  | await
  | check
  | finalize
deriving DecidableEq, Repr

/-- `ctx.transferState` (R24), in the source's listed order. -/
inductive TransferState where
  | setup
  | writeByte
  | await
  | consume
deriving DecidableEq, Repr

/-- `ctx.commandSource` (R27). -/
inductive CommandSource where
  | host
  | searchConst
deriving DecidableEq, Repr

/-- A bus rate: `ctx.baud` (R34) and `sub.rate` (R43). -/
inductive Rate where
  | reset
  | transfer
deriving DecidableEq, Repr

/-- `srch.phase` (R35). -/
inductive Phase where
  | idle
  | pass
  | pairStart
  | pairWait
  | decide
  | writeWait
deriving DecidableEq, Repr

/-- The result status (30_encoding.md R96). -/
inductive Status where
  | wait
  | ok
  | noDevice
deriving DecidableEq, Repr

/-- The result record (R96): `STATUS` and the 16-bit `VALUE`. -/
structure Result where
  status : Status
  value  : Half
deriving DecidableEq, Repr

/-- The direction of a host-memory access, as `Fault(MemRange)` records it (60_exceptions.md R302). -/
inductive Access where
  | read
  | write
deriving DecidableEq, Repr

/-- The model faults (60_exceptions.md R302), each with what it records. -/
inductive Fault where
  /-- Raised when a request is taken whose `OP` is reserved or names a feature not built in (R95, R270).
  Safe: the spec names it. -/
  | illegalOp (op : Byte)
  /-- Raised when a reset, send or search is requested while a different one of them holds the context
  (R271). Safe: the spec names it. -/
  | overlap (op : Byte) (owner : Owner)
  /-- Raised by a host-memory access of the core outside `HOST_WINDOW` (20_memory.md R61). Safe: the
  spec names it. -/
  | memRange (addr : Nat) (access : Access)
deriving DecidableEq, Repr

/-- Why the machine refuses. -/
inductive Refusal where
  /-- Raised by an arm of exec whose instruction has no meaning yet; none is left. Safe. -/
  | notModelled (mnemonic : String)
  /-- Raised by exec on a request given while a search holds the context: the host has no step then
  (45_control.md R271 "(no host step)", R273, 70_reset_and_hazards.md R340), so the request is not
  accepted. step never runs into it (log 2, log 9). Safe: no behaviour of the machine is lost. -/
  | hostBlocked
deriving DecidableEq, Repr

/-- Host memory: the bytes that differ from what an unlisted address reads as, by rising address
(20_memory.md R60; log 7). -/
abbrev Memory := List Host.Cell

/-- The context registers (10_state.md R22 to R34). -/
structure Ctx where
  owner : Owner
  resetState : ResetState
  transferState : TransferState
  resetRetryBudget : Byte
  lastOperationTimestamp : Millis
  commandSource : CommandSource
  commandCursor : Nat
  commandRemaining : Nat
  dataCursor : Nat
  dataRemaining : Nat
  readSkip : Byte
  tx : Slots
  rx : Slots
  baud : Rate
deriving DecidableEq, Repr

/-- The search sequencer's registers (10_state.md R35 to R40). -/
structure Srch where
  phase : Phase
  out : Nat
  max : Byte
  found : Byte
  lastCollision : BitVec 7
  currentCollision : BitVec 7
  bit : BitVec 7
deriving DecidableEq, Repr

/-- The substrate agent's state (10_state.md R43). `txPending` is the count of slots handed over by
`Sub.beginTransmit` and not yet sent (DEDUCED from 20_memory.md R70 and R73; log 12). -/
structure Sub where
  busy : Bool
  rxPending : Nat
  txPending : Nat
  rate : Rate
deriving DecidableEq, Repr

/-- A pending action of the outside: one transition of 45_control.md R273 each, or a host write to its
own memory (20_memory.md R67). -/
inductive Event where
  /-- The host issues the request whose packed word is `w` (R92, R270). -/
  | request (w : Nat)
  /-- The host writes a byte of its memory (R67). -/
  | hostWrite (addr : Nat) (v : Byte)
  /-- The core takes its own step, during a search (R273). -/
  | core
  /-- The substrate completes the armed exchange; the bus chose the bytes `b` (R72). -/
  | complete (b : Slots)
  /-- The clock advances by `ms` (R74). -/
  | tick (ms : Millis)
deriving DecidableEq, Repr

/-- The state of the system: core, substrate, clock, host memory, and the model's bookkeeping. -/
structure State where
  /-- The parameters: constant, no step writes them (10_state.md R46; log 6). -/
  cfg : Params
  /-- The context registers. -/
  ctx : Ctx
  /-- The search sequencer's registers. -/
  srch : Srch
  /-- The substrate. -/
  sub : Sub
  /-- The millisecond clock (20_memory.md R74). -/
  now : Millis
  /-- Host memory (20_memory.md R60). -/
  mem : Memory
  /-- The result record the host was last handed; none after power-on and while a search runs
  (30_encoding.md R96; log 11). -/
  result : Option Result
  /-- `model.fault` (10_state.md R45). -/
  fault : Option Fault
  /-- The model's own: how many free values of 20_memory.md R77 have been drawn (log 3). -/
  draws : Nat
  /-- The model's own: what the outside does next, in order (log 1, log 2). -/
  env : List Event
deriving DecidableEq, Repr

/-- The context registers at power-on (10_state.md R48). -/
def Ctx.powerOn : Ctx where
  owner := .idle
  resetState := .init
  transferState := .setup
  resetRetryBudget := 0
  lastOperationTimestamp := 0
  commandSource := .host
  commandCursor := 0
  commandRemaining := 0
  dataCursor := 0
  dataRemaining := 0
  readSkip := 0
  tx := Config.powerOnTx
  rx := Config.powerOnRx
  baud := .reset

/-- The search registers at power-on and after a clear (10_state.md R48). -/
def Srch.clear : Srch where
  phase := .idle
  out := 0
  max := 0
  found := 0
  lastCollision := 0
  currentCollision := 0
  bit := 0

/-- The substrate at power-on: idle, at the rate of the one `Sub.reconfigure(BAUD_RESET)` the core then
makes (70_reset_and_hazards.md R330). -/
def Sub.powerOn : Sub where
  busy := false
  rxPending := 0
  txPending := 0
  rate := .reset

/-- The state after power-on (70_reset_and_hazards.md R330), in the reference configuration, with no
action of the outside pending. -/
def State.reset : State where
  cfg := Params.reference
  ctx := Ctx.powerOn
  srch := Srch.clear
  sub := Sub.powerOn
  now := Config.powerOnMillis
  mem := []
  result := none
  fault := none
  draws := 0
  env := []

/-! Record updates by name; their field lemmas are in Laws/State.lean. -/

def State.setCtx (s : State) (x : Ctx) : State := { s with ctx := x }
def State.setSrch (s : State) (x : Srch) : State := { s with srch := x }
def State.setSub (s : State) (x : Sub) : State := { s with sub := x }
def State.setNow (s : State) (x : Millis) : State := { s with now := x }
def State.setMem (s : State) (x : Memory) : State := { s with mem := x }
def State.setResult (s : State) (x : Option Result) : State := { s with result := x }
def State.setFault (s : State) (x : Option Fault) : State := { s with fault := x }
def State.setDraws (s : State) (x : Nat) : State := { s with draws := x }
def State.setEnv (s : State) (x : List Event) : State := { s with env := x }

end Sys2Proof.Machine
end

