-- ==== Sys2Proof/Machine/Ops.lean ====
section
/-! DEFINITION. The named operations over memory, the substrate port and the registers that every meaning is built from: host memory (20_memory.md section 1), the substrate primitives and the exchange macros (section 2), the recording of a model fault (60_exceptions.md R302), and the taking of a host request (45_control.md R270, R271). -/

namespace Sys2Proof.Machine

/-! ## Host memory -/

/-- What a byte nothing has written reads as. DESIGN CHOICE, unsafe (log 7): the contents of host memory
are the host's and the spec gives none. -/
def Memory.unlisted : Byte := 0x00

/-- The canonical form: addresses strictly rising, no entry equal to what an unlisted address reads as. -/
abbrev Memory.wf (m : Memory) : Prop :=
  m.Pairwise (fun c d => c.1 < d.1) ∧ ∀ c ∈ m, c.2 ≠ Memory.unlisted

/-- The byte at an address. -/
def Memory.read : Memory → Nat → Byte
  | [], _ => Memory.unlisted
  | (k, v) :: m, a => if a = k then v else Memory.read m a

/-- Put a byte at the front of a memory whose addresses are all higher. -/
def Memory.cons (a : Nat) (v : Byte) (m : Memory) : Memory :=
  if v = Memory.unlisted then m else (a, v) :: m

/-- The memory with the byte at one address replaced, in canonical form. -/
def Memory.write : Memory → Nat → Byte → Memory
  | [], a, v => Memory.cons a v []
  | (k, w) :: m, a, v =>
    if a < k then Memory.cons a v ((k, w) :: m)
    else if a = k then Memory.cons a v m
    else (k, w) :: Memory.write m a v

/-- The core may access the address: it exists and lies in `HOST_WINDOW` (R61). -/
def inWindow (p : Params) (a : Nat) : Bool :=
  decide (a < 2 ^ p.addrW) && p.window.any fun r => decide (r.base ≤ a) && decide (a < r.base + r.size)

/-- `MemRead(addr, 1)` (00_scope.md R13, R61). -/
def memRead (a : Nat) (s : State) : Except Fault Byte :=
  if inWindow s.cfg a then .ok (s.mem.read a) else .error (.memRange a .read)

/-- `MemWrite(addr, 1, v)` (R13, R61). -/
def memWrite (a : Nat) (v : Byte) (s : State) : Except Fault State :=
  if inWindow s.cfg a then .ok (s.setMem (s.mem.write a v)) else .error (.memRange a .write)

/-! ## The substrate port -/

/-- `Sub.reconfigure(r)`, with the core's shadow of the rate written together with it (R70, R75,
10_state.md R34). -/
def reconfigure (r : Rate) (s : State) : State :=
  (s.setSub { s.sub with rate := r }).setCtx { s.ctx with baud := r }

/-- `Sub.beginReceive(n)`: arm a receive of `n` bytes into `ctx.rx` (R70). -/
def beginReceive (n : Nat) (s : State) : State :=
  s.setSub { s.sub with rxPending := n, busy := true }

/-- `Sub.beginTransmit(n)`: start sending `ctx.tx[0..n-1]` (R70). -/
def beginTransmit (n : Nat) (s : State) : State :=
  s.setSub { s.sub with txPending := n }

/-- `Sub.isIdle()` (R70, R73). -/
def isIdle (s : State) : Bool := !s.sub.busy

/-- `Sub.nowMillis()` (R70, R74). -/
def nowMillis (s : State) : Millis := s.now

/-- `EXCH_START(n)` (R76; receive before transmit, R71). -/
def exchStart (n : Nat) (s : State) : State :=
  let s := beginTransmit n (beginReceive n s)
  s.setCtx { s.ctx with lastOperationTimestamp := nowMillis s }

/-- Milliseconds since the last exchange was started, modulo 2^32 (R76). -/
def elapsed (s : State) : Millis := nowMillis s - s.ctx.lastOperationTimestamp

/-- `EXCH_DONE()` (R76). -/
def exchDone (s : State) : Bool := isIdle s || decide (s.cfg.timeoutMs ≤ elapsed s)

/-- What a rule of the core reads from `ctx.rx`: the buffer, or, when the exchange ended by timeout and
the substrate has not completed it, any value, a fresh free value each time (R77; log 3). The
register itself is the substrate's to write (10_state.md R32). -/
def rxSeen (s : State) : Slots :=
  if s.sub.busy then Config.timedOutRx s.draws else s.ctx.rx

/-- The state after a read of `ctx.rx`: one more free value used, if one was (log 3). -/
def rxDrawn (s : State) : State :=
  if s.sub.busy then s.setDraws (s.draws + 1) else s

/-- `b_i` for the `n` armed entries, the old entry otherwise (R72). -/
def mergeRx (old b : Slots) (n : Nat) : Slots :=
  let pick (i : Nat) (o v : Byte) : Byte := if i < n then v else o
  #v[pick 0 old[0] b[0], pick 1 old[1] b[1], pick 2 old[2] b[2], pick 3 old[3] b[3],
     pick 4 old[4] b[4], pick 5 old[5] b[5], pick 6 old[6] b[6], pick 7 old[7] b[7]]

/-- The substrate's completion step, the bus having chosen the bytes `b` (R72). -/
def subComplete (b : Slots) (s : State) : State :=
  (s.setCtx { s.ctx with rx := mergeRx s.ctx.rx b s.sub.rxPending }).setSub
    { s.sub with rxPending := 0, txPending := 0, busy := false }

/-- The clock advances (R74). -/
def clockAdvance (ms : Millis) (s : State) : State := s.setNow (s.now + ms)

/-! ## Ownership and results -/

/-- Write `ctx.owner` (10_state.md R22). -/
def setOwner (o : Owner) (s : State) : State := s.setCtx { s.ctx with owner := o }

/-- Hand the host a result record (30_encoding.md R96, 00_scope.md R15 `return (status, value)`). -/
def deliver (st : Status) (v : Half) (s : State) : State := s.setResult (some ⟨st, v⟩)

/-- The end of a polled operation's step: a status other than `WAIT` gives the context back; the value
is 0 (41_reset_fsm.md R146, 42_transfer_fsm.md R175). -/
def endPoll (st : Status) (s : State) : State :=
  deliver st 0 (if st = .wait then s else setOwner .idle s)

/-! ## Model faults -/

/-- The one effect of a step that raises a model fault: the fault is recorded; core, memory and
substrate are as they were (60_exceptions.md R302, 10_state.md R45; log 8). This is the only
"exception" the hardware has; there is no return from it (R303, R308). -/
def recordFault (r : Fault) (s : State) : State := s.setFault (some r)

/-- A step's outcome: the state it leaves, or the fault it raises. -/
def outcomeOf : Except Fault State → Host.Outcome State Fault Refusal
  | .ok s => .next s
  | .error r => .fault r

/-- A transition as the system takes it: a raised fault is recorded in the state the transition started
from (60_exceptions.md R302). -/
def commit (s : State) : Host.Outcome State Fault Refusal → Host.Outcome State Fault Refusal
  | .next t => .next t
  | .fault r => .next (recordFault r s)
  | .refused r => .refused r

/-! ## Taking a host request -/

/-- `legalOp(op)` (45_control.md R270, 30_encoding.md R95). -/
def legalOp (p : Params) (op : Byte) : Bool :=
  decide (op ∈ [0x01, 0x02, 0x03, 0x05, 0x08, 0x09])
    || (decide (op = 0x04) && p.featureSearch)
    || (decide (op ∈ [0x06, 0x07]) && p.featureCrc16)

/-- `checkOwner(op)` allows the request (45_control.md R271): the row of `op`, the column of the owner. -/
def ownerAllows (op : Byte) (o : Owner) : Bool :=
  if op = 0x02 then decide (o = .idle ∨ o = .reset)
  else if op = 0x03 then decide (o = .idle ∨ o = .transfer)
  else if op = 0x04 then decide (o = .idle)
  else decide (o ≠ .search)

/-- The host has a step: no fault is recorded and no search runs (45_control.md R273). -/
def hostEnabled (s : State) : Bool := decide (s.fault = none) && decide (s.ctx.owner ≠ .search)

/-- `hostStep` for the operation code `op` (45_control.md R270): the checks in the order of
60_exceptions.md R305, then the operation's own step `body`. -/
def hostStep (op : Byte) (s : State) (body : Except Fault State) : Host.Outcome State Fault Refusal :=
  match s.fault with
  | some r => .fault r
  | none =>
    if s.ctx.owner = .search then .refused .hostBlocked
    else if !legalOp s.cfg op then .fault (.illegalOp op)
    else if !ownerAllows op s.ctx.owner then .fault (.overlap op s.ctx.owner)
    else outcomeOf body

end Sys2Proof.Machine
end

