-- ==== Sys2Proof/Machine/Operands.lean ====
section
/-! DEFINITION. The operand forms of the requests (30_encoding.md R93): a buffer `(address, length)` walked one byte an access in ascending address order (20_memory.md R62, R66), a fixed 8-byte slot area, the two inverted CRC bytes, and the ROM slots of a search (10_state.md R36, 30_encoding.md R101). -/

namespace Sys2Proof.Machine

/-- Read `n` bytes from `a` upwards; the first address outside `HOST_WINDOW` faults (R61, R62). A buffer
of length 0 is never accessed (R66). -/
def readBytes : Nat → Nat → State → Except Fault (List Byte)
  | _, 0, _ => .ok []
  | a, n + 1, s => do
    let b ← memRead a s
    let bs ← readBytes (a + 1) n s
    return b :: bs

/-- Write bytes from `a` upwards; the first address outside `HOST_WINDOW` faults. -/
def writeBytes : Nat → List Byte → State → Except Fault State
  | _, [], s => .ok s
  | a, b :: bs, s => do
    let s ← memWrite a b s
    writeBytes (a + 1) bs s

/-- The eight slot bytes at `a .. a+7` (40_bit_codec.md R125). -/
def readSlots (a : Nat) (s : State) : Except Fault Slots := do
  let b0 ← memRead a s
  let b1 ← memRead (a + 1) s
  let b2 ← memRead (a + 2) s
  let b3 ← memRead (a + 3) s
  let b4 ← memRead (a + 4) s
  let b5 ← memRead (a + 5) s
  let b6 ← memRead (a + 6) s
  let b7 ← memRead (a + 7) s
  return #v[b0, b1, b2, b3, b4, b5, b6, b7]

/-- Where ROM bit position `p` of slot `k` lies: the byte's address (30_encoding.md R101, 43_rom_search.md
R205, R206; an exact sum, not wrapped, 10_state.md R50). -/
def romByteAddr (out k p : Nat) : Nat := out + 8 * k + (p - 1) / 8

/-- Which bit of that byte it is (R101). -/
def romBitIndex (p : Nat) : Nat := (p - 1) % 8

/-- `m[i] <- b` for one bit of a byte (00_scope.md R11). -/
def setBit (m : Byte) (i : Nat) (b : Bool) : Byte :=
  if b then m ||| (1#8 <<< i) else m &&& ~~~(1#8 <<< i)

end Sys2Proof.Machine
end

