-- ==== Sys2Proof/Machine/Control.lean ====
section
/-! DEFINITION. The operation CLEAR (45_control.md R272). -/

namespace Sys2Proof.Machine

/-- The context registers after a clear (R272, 10_state.md R48): `tx`, `rx` and `baud` are not touched. -/
def clearCtx (c : Ctx) : Ctx :=
  { c with
    owner := .idle
    resetState := .init
    transferState := .setup
    resetRetryBudget := 0
    lastOperationTimestamp := 0
    commandSource := .host
    commandCursor := 0
    commandRemaining := 0
    dataCursor := 0
    dataRemaining := 0
    readSkip := 0 }

/-- CLEAR (R272). -/
def execClear (s : State) : Host.Outcome State Fault Refusal :=
  hostStep 0x01 s (.ok (deliver .ok 0 ((s.setCtx (clearCtx s.ctx)).setSrch Srch.clear)))

end Sys2Proof.Machine
end

