-- ==== Sys2Proof/Machine/Crc.lean ====
section
/-! DEFINITION. The CRC-8 and CRC-16 cores and the operations CRC8, CRC16 and CHECK_CRC16 (44_crc.md). -/

namespace Sys2Proof.Machine

/-! ## CRC-8 -/

/-- `n` bit iterations of the bitwise CRC-8 fold of the input byte `b` (R240). -/
def crc8FoldBits (poly : Byte) : Nat → Byte → Byte → Byte
  | 0, crc, _ => crc
  | n + 1, crc, b =>
    let mix := (crc ^^^ b).getLsbD 0
    let crc := crc >>> 1
    crc8FoldBits poly n (if mix then crc ^^^ poly else crc) (b >>> 1)

/-- One byte of the bitwise datapath (R240). -/
def crc8ByteBitwise (poly crc b : Byte) : Byte := crc8FoldBits poly 8 crc b

/-- The column `LO` as R241 prints it, for the default polynomial. -/
def crc8LoTable : Vector Byte 16 :=
  #v[0x00, 0x5E, 0xBC, 0xE2, 0x61, 0x3F, 0xDD, 0x83, 0xC2, 0x9C, 0x7E, 0x20, 0xA3, 0xFD, 0x1F, 0x41]

/-- The column `HI` as R241 prints it, for the default polynomial. -/
def crc8HiTable : Vector Byte 16 :=
  #v[0x00, 0x9D, 0x23, 0xBE, 0x46, 0xDB, 0x65, 0xF8, 0x8C, 0x11, 0xAF, 0x32, 0xCA, 0x57, 0xE9, 0x74]

/-- `LO[n]`: the printed column, or for another polynomial `crc8([n])`, "recomputed from rule R240 the
same way" (R241). -/
def crc8Lo (poly : Byte) (n : BitVec 4) : Byte :=
  if poly = 0x8C then crc8LoTable[n.toNat] else crc8ByteBitwise poly 0 (n.setWidth 8)

/-- `HI[n]`: the printed column, or for another polynomial `crc8([n << 4])` (R241). -/
def crc8Hi (poly : Byte) (n : BitVec 4) : Byte :=
  if poly = 0x8C then crc8HiTable[n.toNat] else crc8ByteBitwise poly 0 (n.setWidth 8 <<< 4)

/-- One byte of the table datapath (R241). -/
def crc8ByteTable (poly crc b : Byte) : Byte :=
  let x := crc ^^^ b
  crc8Lo poly (x.extractLsb' 0 4) ^^^ crc8Hi poly (x.extractLsb' 4 4)

/-- One byte of the datapath that is built (R241, 00_scope.md R9 `CRC8_IMPL`). -/
def crc8Byte (p : Params) (crc b : Byte) : Byte :=
  match p.crc8Impl with
  | .bitwise => crc8ByteBitwise p.crc8Poly crc b
  | .table => crc8ByteTable p.crc8Poly crc b

/-- `crc8(bytes)` (R240, R241): the register starts at 0. -/
def crc8 (p : Params) (bytes : List Byte) : Byte := bytes.foldl (crc8Byte p) 0

/-! ## CRC-16 -/

/-- `ODDPARITY[n]` (R243): the parity of the index. -/
def oddParity : Vector Bool 16 :=
  #v[false, true, true, false, true, false, false, true,
     true, false, false, true, false, true, true, false]

/-- One byte in the odd-parity form (R243), for the default polynomial. -/
def crc16ByteOddParity (crc : Half) (b : Byte) : Half :=
  let cdata := (b.setWidth 16 ^^^ crc) &&& 0x00FF
  let crc := crc >>> 8
  let odd := oddParity[(cdata.extractLsb' 0 4).toNat] ^^ oddParity[(cdata.extractLsb' 4 4).toNat]
  let crc := if odd then crc ^^^ 0xC001 else crc
  let cdata := cdata <<< 6
  let crc := crc ^^^ cdata
  let cdata := cdata <<< 1
  crc ^^^ cdata

/-- `n` iterations of the bitwise CRC-16 form (R243). -/
def crc16FoldBits (poly : Half) : Nat → Half → Half
  | 0, crc => crc
  | n + 1, crc => crc16FoldBits poly n (if crc.getLsbD 0 then (crc >>> 1) ^^^ poly else crc >>> 1)

/-- One byte in the bitwise form (R243). -/
def crc16ByteBitwise (poly crc : Half) (b : Byte) : Half :=
  crc16FoldBits poly 8 (crc ^^^ b.setWidth 16)

/-- One byte of the CRC-16: "the odd-parity form holds only for the default `0xA001`; a model that sets
the parameter to another value uses the bitwise form" (R243). -/
def crc16Byte (p : Params) (crc : Half) (b : Byte) : Half :=
  if p.crc16Poly = 0xA001 then crc16ByteOddParity crc b else crc16ByteBitwise p.crc16Poly crc b

/-- `crc16(bytes, seed)` (R243): no final inversion. -/
def crc16 (p : Params) (bytes : List Byte) (seed : Half) : Half := bytes.foldl (crc16Byte p) seed

/-- The comparison of `checkCrc16` (R245): the inverted CRC's low byte against `i0`, its high byte
against `i1`. -/
def invertedMatch (crc : Half) (i0 i1 : Byte) : Bool :=
  let c := ~~~crc
  i0 == c.extractLsb' 0 8 && i1 == c.extractLsb' 8 8

/-- `checkCrc16(bytes, inv, seed)` (R245). -/
def checkCrc16 (p : Params) (bytes : List Byte) (i0 i1 : Byte) (seed : Half) : Bool :=
  invertedMatch (crc16 p bytes seed) i0 i1

/-! ## The operations -/

/-- CRC8 (R242). -/
def execCrc8 (a la : Nat) (s : State) : Host.Outcome State Fault Refusal :=
  hostStep 0x05 s do
    let bytes ← readBytes a la s
    return deliver .ok ((crc8 s.cfg bytes).setWidth 16) s

/-- CRC16 (R244). -/
def execCrc16 (a la : Nat) (seed : Half) (s : State) : Host.Outcome State Fault Refusal :=
  hostStep 0x06 s do
    let bytes ← readBytes a la s
    return deliver .ok (crc16 s.cfg bytes seed) s

/-- CHECK_CRC16 (R246): the payload, then `b`, then `b + 1`, always all read. -/
def execCheckCrc16 (a la b : Nat) (seed : Half) (s : State) : Host.Outcome State Fault Refusal :=
  hostStep 0x07 s do
    let bytes ← readBytes a la s
    let i0 ← memRead b s
    let i1 ← memRead (b + 1) s
    return deliver .ok (if checkCrc16 s.cfg bytes i0 i1 seed then 1 else 0) s

end Sys2Proof.Machine
end

