-- ==== Sys2Proof/Machine/Codec.lean ====
section
/-! DEFINITION. The bit encoder and the bit decoder, and the operations ENCODE and DECODE that expose them (40_bit_codec.md). -/

namespace Sys2Proof.Machine

/-- `bitSlot(x)` (R123). -/
def bitSlot (p : Params) (x : Bool) : Byte := if x then p.slotOne else p.slotZero

/-- `slotBit(b)`: 1 exactly for the "device asserts" pattern (R122). -/
def slotBit (p : Params) (b : Byte) : Bool := b == p.slotOne

/-- `encodeByte(v)`: slot `i` carries bit `i` (R120). -/
def encodeByte (p : Params) (v : Byte) : Slots :=
  #v[bitSlot p (v.getLsbD 0), bitSlot p (v.getLsbD 1), bitSlot p (v.getLsbD 2), bitSlot p (v.getLsbD 3),
     bitSlot p (v.getLsbD 4), bitSlot p (v.getLsbD 5), bitSlot p (v.getLsbD 6), bitSlot p (v.getLsbD 7)]

/-- `decodeByte(s)`: bit `i` is `slotBit(s[i])` (R121). -/
def decodeByte (p : Params) (s : Slots) : Byte :=
  BitVec.ofBoolListLE
    [slotBit p s[0], slotBit p s[1], slotBit p s[2], slotBit p s[3],
     slotBit p s[4], slotBit p s[5], slotBit p s[6], slotBit p s[7]]

/-- ENCODE (R124). -/
def execEncode (v : Byte) (a : Nat) (s : State) : Host.Outcome State Fault Refusal :=
  hostStep 0x08 s do
    let s ← writeBytes a (encodeByte s.cfg v).toList s
    return deliver .ok 0 s

/-- DECODE (R125). -/
def execDecode (a : Nat) (s : State) : Host.Outcome State Fault Refusal :=
  hostStep 0x09 s do
    let slots ← readSlots a s
    return deliver .ok ((decodeByte s.cfg slots).setWidth 16) s

end Sys2Proof.Machine
end

