-- ==== Sys2Proof/Machine/ResetFsm.lean ====
section
/-! DEFINITION. The reset state machine and the operation RESET (41_reset_fsm.md). -/

namespace Sys2Proof.Machine

/-- State `INIT` (R141). -/
def resetInit (s : State) : Status × State :=
  let s := reconfigure .reset s
  (.wait, s.setCtx { s.ctx with resetRetryBudget := s.cfg.resetAttempts, resetState := .sendPresence })

/-- State `SEND_PRESENCE` (R142). -/
def resetSendPresence (s : State) : Status × State :=
  let s := exchStart 1 (s.setCtx { s.ctx with tx := s.ctx.tx.set 0 s.cfg.resetByte })
  (.wait, s.setCtx { s.ctx with resetState := .await })

/-- State `AWAIT` (R143). -/
def resetAwait (s : State) : Status × State :=
  (.wait, if exchDone s then s.setCtx { s.ctx with resetState := .check } else s)

/-- State `CHECK` (R144; after a timeout the echo is any value, log 3). -/
def resetCheck (s : State) : Status × State :=
  let echo := (rxSeen s)[0]
  let s := rxDrawn s
  if echo ≠ s.cfg.resetByte then
    (.wait, s.setCtx { s.ctx with resetState := .finalize })
  else if 1 < s.ctx.resetRetryBudget then
    (.wait, s.setCtx { s.ctx with
      resetRetryBudget := s.ctx.resetRetryBudget - 1, resetState := .sendPresence })
  else
    (.wait, s.setCtx { s.ctx with resetRetryBudget := 0, resetState := .finalize })

/-- State `FINALIZE` (R145). -/
def resetFinalize (s : State) : Status × State :=
  let s := reconfigure .transfer s
  (if s.ctx.resetRetryBudget = 0 then .noDevice else .ok,
    s.setCtx { s.ctx with resetState := .init })

/-- `resetStep()`: the action of one state (R140). -/
def resetStep (s : State) : Status × State :=
  match s.ctx.resetState with
  | .init => resetInit s
  | .sendPresence => resetSendPresence s
  | .await => resetAwait s
  | .check => resetCheck s
  | .finalize => resetFinalize s

/-- RESET (R146). -/
def execReset (s : State) : Host.Outcome State Fault Refusal :=
  hostStep 0x02 s
    (let r := resetStep (setOwner .reset s)
     .ok (endPoll r.1 r.2))

end Sys2Proof.Machine
end

