-- ==== Sys2Proof/Machine/TransferFsm.lean ====
section
/-! DEFINITION. The transfer state machine and the operation SEND (42_transfer_fsm.md). -/

namespace Sys2Proof.Machine

/-- The arguments of `transferStep` (R170). -/
structure TransferArgs where
  src : CommandSource
  cmdAddr : Nat
  cmdLen : Nat
  dataAddr : Nat
  dataLen : Nat
  skip : Byte
deriving DecidableEq, Repr

/-- The snapshot of the arguments in `SETUP` (R171). -/
def transferSnapshot (args : TransferArgs) (s : State) : State :=
  s.setCtx { s.ctx with
    commandSource := args.src
    commandCursor := args.cmdAddr
    commandRemaining := args.cmdLen
    dataCursor := args.dataAddr
    dataRemaining := args.dataLen
    readSkip := args.skip
    transferState := .writeByte }

/-- State `SETUP` (R171): one reset step, and the snapshot when the reset ends with `OK`. -/
def transferSetup (args : TransferArgs) (s : State) : Status × State :=
  let r := resetStep s
  match r.1 with
  | .wait => (.wait, r.2)
  | .noDevice => (.noDevice, r.2)
  | .ok => (.wait, transferSnapshot args r.2)

/-- `cmdByte()` (R176). -/
def cmdByte (s : State) : Except Fault Byte :=
  match s.ctx.commandSource with
  | .host => memRead s.ctx.commandCursor s
  | .searchConst => .ok s.cfg.searchRomCmd

/-- State `WRITE_BYTE` (R172). -/
def transferWriteByte (s : State) : Except Fault (Status × State) :=
  if s.ctx.commandRemaining = 0 then
    .ok (.ok, s.setCtx { s.ctx with transferState := .setup })
  else do
    let b ← cmdByte s
    let s := exchStart 8 (s.setCtx { s.ctx with
      commandCursor := s.ctx.commandCursor + 1
      commandRemaining := s.ctx.commandRemaining - 1
      tx := encodeByte s.cfg b })
    return (.wait, s.setCtx { s.ctx with transferState := .await })

/-- State `AWAIT` (R173). -/
def transferAwait (s : State) : Status × State :=
  (.wait, if exchDone s then s.setCtx { s.ctx with transferState := .consume } else s)

/-- What `CONSUME` does with the decoded byte `d` (R174): store it, or count down the skip counter. -/
def captureByte (d : Byte) (s : State) : Except Fault State :=
  if s.ctx.readSkip = 0 ∧ 0 < s.ctx.dataRemaining then do
    let s ← memWrite s.ctx.dataCursor d s
    return s.setCtx { s.ctx with
      dataCursor := s.ctx.dataCursor + 1, dataRemaining := s.ctx.dataRemaining - 1 }
  else if s.ctx.readSkip ≠ s.cfg.skipNever then
    .ok (s.setCtx { s.ctx with readSkip := s.ctx.readSkip - 1 })
  else .ok s

/-- State `CONSUME` (R174; after a timeout the received slots are any value, log 3). -/
def transferConsume (s : State) : Except Fault (Status × State) := do
  let s ← captureByte (decodeByte s.cfg (rxSeen s)) (rxDrawn s)
  return (.wait, s.setCtx { s.ctx with transferState := .writeByte })

/-- `transferStep(args)`: the action of one state (R170). -/
def transferStep (args : TransferArgs) (s : State) : Except Fault (Status × State) :=
  match s.ctx.transferState with
  | .setup => .ok (transferSetup args s)
  | .writeByte => transferWriteByte s
  | .await => .ok (transferAwait s)
  | .consume => transferConsume s

/-- SEND (R175). -/
def execSend (a la b lb : Nat) (skip : Byte) (s : State) : Host.Outcome State Fault Refusal :=
  hostStep 0x03 s do
    let r ← transferStep ⟨.host, a, la, b, lb, skip⟩ (setOwner .transfer s)
    return endPoll r.1 r.2

end Sys2Proof.Machine
end

