-- ==== Sys2Proof/Machine/RomSearch.lean ====
section
/-! DEFINITION. The ROM search sequencer: the operation SEARCH, which starts it, and the core's own step during a search, one phase a step (43_rom_search.md). -/

namespace Sys2Proof.Machine

/-- SEARCH (R200): the search starts; there is no result yet. -/
def execSearch (a : Nat) (max : Byte) (s : State) : Host.Outcome State Fault Refusal :=
  hostStep 0x04 s
    (.ok ((setOwner .search s).setSrch
      { phase := .pass, out := a, max := max, found := 0, lastCollision := 0, currentCollision := 0,
        bit := 0 } |>.setResult none))

/-- `terminate(n)` (R209). -/
def terminate (n : Byte) (s : State) : State :=
  deliver .ok (n.setWidth 16) (setOwner .idle (s.setSrch { s.srch with phase := .idle }))

/-- The transfer of one search pass: the Search-ROM command alone (R201). -/
def searchArgs (p : Params) : TransferArgs := ⟨.searchConst, 0, 1, 0, 0, p.skipNever⟩

/-- Phase `S_PASS` (R201). -/
def searchPass (s : State) : Except Fault State :=
  if s.srch.max ≤ s.srch.found then .ok (terminate s.srch.found s)
  else do
    let r ← transferStep (searchArgs s.cfg) s
    let s := r.2
    match r.1 with
    | .wait => return s
    | .noDevice => return terminate s.srch.found s
    | .ok => return s.setSrch { s.srch with currentCollision := 0, bit := 1, phase := .pairStart }

/-- Phase `S_PAIR_START` (R202). -/
def searchPairStart (s : State) : State :=
  let s := exchStart 2 (s.setCtx { s.ctx with
    tx := (s.ctx.tx.set 0 s.cfg.slotOne).set 1 s.cfg.slotOne })
  s.setSrch { s.srch with phase := .pairWait }

/-- Phase `S_PAIR_WAIT` (R203). -/
def searchPairWait (s : State) : State :=
  if exchDone s then s.setSrch { s.srch with phase := .decide } else s

/-- The address at which a replayed bit is read back: the previous device's slot (R205). -/
def prevRomAddr (s : State) : Nat := romByteAddr s.srch.out (s.srch.found.toNat - 1) s.srch.bit.toNat

/-- The address of the current slot's byte that holds the current bit (R206). -/
def curRomAddr (s : State) : Nat := romByteAddr s.srch.out s.srch.found.toNat s.srch.bit.toNat

/-- `resolveCollision()` (R205): the chosen bit, and the state with the collision recorded. -/
def resolveCollision (s : State) : Except Fault (Bool × State) :=
  let record := s.setSrch { s.srch with currentCollision := s.srch.bit }
  if s.srch.bit < s.srch.lastCollision then do
    let m ← memRead (prevRomAddr s) s
    let sel := m.getLsbD (romBitIndex s.srch.bit.toNat)
    return (sel, if sel then record else s)
  else if s.srch.bit = s.srch.lastCollision then .ok (false, s)
  else .ok (true, record)

/-- `recordBit(sel)` (R206): read, replace the bit, write. -/
def recordBit (sel : Bool) (s : State) : Except Fault State := do
  let m ← memRead (curRomAddr s) s
  memWrite (curRomAddr s) (setBit m (romBitIndex s.srch.bit.toNat) sel) s

/-- The end of `S_DECIDE`: record the bit and start its write slot (R204, R206, R207). -/
def searchSelect (sel : Bool) (s : State) : Except Fault State := do
  let s ← recordBit sel s
  let s := exchStart 1 (s.setCtx { s.ctx with tx := s.ctx.tx.set 0 (bitSlot s.cfg sel) })
  return s.setSrch { s.srch with phase := .writeWait }

/-- Phase `S_DECIDE` (R204; after a timeout the pair is any value, log 3). -/
def searchDecide (s : State) : Except Fault State :=
  let idBit := slotBit s.cfg (rxSeen s)[0]
  let cmpBit := slotBit s.cfg (rxSeen s)[1]
  let s := rxDrawn s
  match idBit, cmpBit with
  | true, true => .ok (terminate s.srch.found s)
  | true, false => searchSelect true s
  | false, true => searchSelect false s
  | false, false => do
    let r ← resolveCollision s
    searchSelect r.1 r.2

/-- Phase `S_WRITE_WAIT` (R208). -/
def searchWriteWait (s : State) : State :=
  if !exchDone s then s
  else if s.srch.bit < 64 then
    s.setSrch { s.srch with bit := s.srch.bit + 1, phase := .pairStart }
  else
    let s := s.setSrch { s.srch with found := s.srch.found + 1 }
    if s.srch.currentCollision = 0 then terminate s.srch.found s
    else s.setSrch { s.srch with lastCollision := s.srch.currentCollision, bit := 0, phase := .pass }

/-- The core's own step while a search holds the context: the action of one phase (R200). In `S_IDLE`
no rule has a step; the phase is never `S_IDLE` while a search runs (10_state.md R42 (d); log 16). -/
def searchStep (s : State) : Except Fault State :=
  match s.srch.phase with
  | .idle => .ok s
  | .pass => searchPass s
  | .pairStart => .ok (searchPairStart s)
  | .pairWait => .ok (searchPairWait s)
  | .decide => searchDecide s
  | .writeWait => .ok (searchWriteWait s)

end Sys2Proof.Machine
end

