-- ==== Sys2Proof/Machine/Dispatch.lean ====
section
/-! DEFINITION. The dispatch of a host request to its operation (45_control.md R270), one arm an operation. -/

namespace Sys2Proof.Machine

def exec (i : Instr) (s : State) : Host.Outcome State Fault Refusal :=
  match i with
  | .clear => Sys2Proof.Machine.execClear s
  | .reset => Sys2Proof.Machine.execReset s
  | .send a la b lb skip => Sys2Proof.Machine.execSend a la b lb skip s
  | .search a max => Sys2Proof.Machine.execSearch a max s
  | .crc8 a la => Sys2Proof.Machine.execCrc8 a la s
  | .crc16 a la seed => Sys2Proof.Machine.execCrc16 a la seed s
  | .checkCrc16 a la b seed => Sys2Proof.Machine.execCheckCrc16 a la b seed s
  | .encode v a => Sys2Proof.Machine.execEncode v a s
  | .decode a => Sys2Proof.Machine.execDecode a s

end Sys2Proof.Machine
end

