-- ==== Sys2Proof/Machine/Agents.lean ====
section
/-! DEFINITION. The transitions of the system, one agent each, and when each is enabled (45_control.md R273, R274). -/

namespace Sys2Proof.Machine

/-- The transition is enabled, no fault being recorded (R273; a host write needs an existing address,
20_memory.md R60, and a host that is not blocked, R67; log 15). -/
def eventEnabled (s : State) : Event → Bool
  | .request _ => decide (s.ctx.owner ≠ .search)
  | .hostWrite a _ => decide (s.ctx.owner ≠ .search) && decide (a < 2 ^ s.cfg.addrW)
  | .core => decide (s.ctx.owner = .search) && decide (s.srch.phase ≠ .idle)
  | .complete _ => s.sub.busy
  | .tick _ => true

/-- The first pending action whose transition is enabled, and the others in their order: one that is
not enabled yet waits (log 2). -/
def takeEnabled (s : State) : List Event → Option (Event × List Event)
  | [] => none
  | e :: es =>
    if eventEnabled s e then some (e, es)
    else (takeEnabled s es).map fun r => (r.1, e :: r.2)

/-- The host step for a packed request word (R270): an `OP` that names no operation is illegal before
any state is read (30_encoding.md R95). -/
def runRequest (w : Nat) (s : State) : Host.Outcome State Fault Refusal :=
  match decode s.cfg w with
  | .ok i => exec i s
  | .error (.reservedOp op) => .fault (.illegalOp op)

/-- The transition of one action, taken whole (R274), a raised fault recorded (60_exceptions.md R302). -/
def runEvent (e : Event) (s : State) : Host.Outcome State Fault Refusal :=
  match e with
  | .request w => commit s (runRequest w s)
  | .hostWrite a v => .next (s.setMem (s.mem.write a v))
  | .core => commit s (outcomeOf (searchStep s))
  | .complete b => .next (subComplete b s)
  | .tick ms => .next (clockAdvance ms s)

/-- What happens when no pending action is enabled: during a search the core steps by itself (R273);
otherwise no agent moves, as "between requests it simply takes no step" (60_exceptions.md R315; log 2). -/
def runAlone (s : State) : Host.Outcome State Fault Refusal :=
  if s.ctx.owner = .search then commit s (outcomeOf (searchStep s)) else .next s

/-- One transition of the system. A recorded fault is terminal (60_exceptions.md R303). -/
def systemStep (s : State) : Host.Outcome State Fault Refusal :=
  match s.fault with
  | some r => .fault r
  | none =>
    match takeEnabled s s.env with
    | some r => runEvent r.1 (s.setEnv r.2)
    | none => runAlone s

/-- The outside with one more request at its front: the host issues the packed word `w` next (log 10). -/
def placeRequest (w : Nat) (s : State) : State := s.setEnv (.request w :: s.env)

end Sys2Proof.Machine
end

