-- ==== Sys2Proof/Machine/Step.lean ====
section
/-! DEFINITION. One step of the machine (45_control.md R273), and the placing of a request word where the next step takes it. -/

namespace Sys2Proof.Machine

/-- One transition of the system. -/
def step (s : State) : Host.Outcome State Fault Refusal := systemStep s

/-- The state in which the host's next action is the request whose packed word has the low `nbits` bits
of `w` and is 0 above them (30_encoding.md R92; log 10). -/
def State.withFetchWord (s : State) (nbits w : Nat) : State := placeRequest (w % 2 ^ nbits) s

end Sys2Proof.Machine
end

