-- ==== Sys2Proof/Machine/Flags.lean ====
section
/-! DEFINITION. The core has no flags register and no condition codes (10_state.md R41); its only status output is the result record, and its numeric encodings are here (30_encoding.md R96). -/

namespace Sys2Proof.Machine

/-- `STATUS`, 2 bits; the value 3 is never produced (R96). -/
def Status.code : Status → BitVec 2
  | .wait => 0
  | .ok => 1
  | .noDevice => 2

/-- The result record packed as a 32-bit word: `STATUS = r[1:0]`, `r[15:2] = 0`, `VALUE = r[31:16]` (R96). -/
def Result.pack (r : Result) : BitVec 32 := r.value ++ (0#14 ++ r.status.code)

/-- `ctx.owner` as its 2 bits (10_state.md R22). -/
def Owner.code : Owner → BitVec 2
  | .idle => 0
  | .reset => 1
  | .transfer => 2
  | .search => 3

/-- `ctx.resetState` as its 3 bits (R23). -/
def ResetState.code : ResetState → BitVec 3
  | .init => 0
  | .sendPresence => 1
  | .await => 2
  | .check => 3
  | .finalize => 4

/-- `ctx.transferState` as its 2 bits (R24). -/
def TransferState.code : TransferState → BitVec 2
  | .setup => 0
  | .writeByte => 1
  | .await => 2
  | .consume => 3

/-- `ctx.commandSource` as its bit (R27). -/
def CommandSource.code : CommandSource → BitVec 1
  | .host => 0
  | .searchConst => 1

/-- `ctx.baud` as its bit (R34). -/
def Rate.code : Rate → BitVec 1
  | .reset => 0
  | .transfer => 1

/-- The baud rate a bus rate stands for (00_scope.md R9; OPEN values). -/
def Rate.baud : Rate → Nat
  | .reset => Config.baudReset
  | .transfer => Config.baudTransfer

/-- `srch.phase` as its 3 bits (R35). -/
def Phase.code : Phase → BitVec 3
  | .idle => 0
  | .pass => 1
  | .pairStart => 2
  | .pairWait => 3
  | .decide => 4
  | .writeWait => 5

end Sys2Proof.Machine
end

