-- ==== Sys2Proof/Safety.lean ====
section
/-! DEFINITION. The terms claims are stated in: when the host may issue a request, which addresses may be touched, the invariant of the machine (10_state.md R42 and the ranges of R48 to R50), and the schedules of 95_test_vectors.md section 0 as pending actions of the outside. -/

namespace Sys2Proof.Machine

/-- The host has a step (45_control.md R273): no fault is recorded and no search runs. -/
abbrev HostReady (s : State) : Prop := s.fault = none ∧ s.ctx.owner ≠ .search

/-- The addresses `a .. a+n-1` all lie in `HOST_WINDOW` (20_memory.md R61). -/
abbrev Accessible (p : Params) (a n : Nat) : Prop := ∀ k, k < n → inWindow p (a + k) = true

/-- The `n` bytes of memory from `a` upwards. -/
def bytesAt (m : Memory) (a n : Nat) : List Byte := (List.range n).map fun k => m.read (a + k)

/-- How the owner, the three machines and the search phase go together whenever no step is executing
(10_state.md R42, 43_rom_search.md R201, R209). -/
structure Control (c : Ctx) (q : Srch) : Prop where
  /-- R42 (a). -/
  idle : c.owner = .idle → c.resetState = .init ∧ c.transferState = .setup ∧ q.phase = .idle
  /-- R42 (b). -/
  resetting : c.owner = .reset → c.transferState = .setup ∧ q.phase = .idle
  /-- R42 (c), and the same of a search's transfer. -/
  transferring : c.owner = .transfer → q.phase = .idle
  /-- R42 (c), second half, in every state. -/
  resetInSetup : c.resetState ≠ .init → c.transferState = .setup
  /-- R42 (d). -/
  searching : c.owner = .search → q.phase ≠ .idle
  /-- Past its command a search pass has the reset machine at `INIT` and the transfer machine at `SETUP`
  (R209), room for the slot it fills (R201), and a bit position in 1..64 (R40). -/
  pairing : q.phase ≠ .idle → q.phase ≠ .pass →
    c.resetState = .init ∧ c.transferState = .setup ∧ q.found < q.max ∧ 1 ≤ q.bit
  /-- A transfer of a pass is under way only while there is room (R201). -/
  passing : q.phase = .pass → (c.resetState = .init ∧ c.transferState = .setup) ∨ q.found < q.max
  /-- The transfer of a pass takes its command byte from the constant and has no data buffer (R201). -/
  passCommand : q.phase = .pass → c.transferState ≠ .setup →
    c.commandSource = .searchConst ∧ c.dataRemaining = 0

/-- The ranges of the counters, cursors and positions (10_state.md R25 to R29, R36 to R40, R50). -/
structure Ranges (p : Params) (c : Ctx) (q : Srch) : Prop where
  /-- `srch.found` in 0..`srch.max` (R50). -/
  found : q.found ≤ q.max
  /-- `srch.bit` in 0..64 (R50). -/
  bit : q.bit ≤ 64
  /-- The collision positions in 0..64 (R38, R39). -/
  collisions : q.lastCollision ≤ 64 ∧ q.currentCollision ≤ 64
  /-- A recorded last collision means a finished pass (43_rom_search.md R205). -/
  collisionFound : q.phase ≠ .idle → q.lastCollision ≠ 0 → q.found ≠ 0
  /-- `ctx.resetRetryBudget` in 0..`RESET_ATTEMPTS` (R50). -/
  budget : c.resetRetryBudget ≤ p.resetAttempts
  /-- An attempt under way is counted in the budget (R25). -/
  budgetLeft : c.resetState ≠ .init → c.resetState ≠ .finalize → 1 ≤ c.resetRetryBudget
  /-- The cursors in 0..2^ADDR_W (R28, R29). -/
  cursors : c.commandCursor ≤ 2 ^ p.addrW ∧ c.dataCursor ≤ 2 ^ p.addrW
  /-- The counters in `LEN_W` bits (R28, R29). -/
  counters : c.commandRemaining < 2 ^ p.lenW ∧ c.dataRemaining < 2 ^ p.lenW
  /-- The search's transfer sends one constant byte (R201). -/
  constCommand : c.commandSource = .searchConst → c.commandCursor + c.commandRemaining ≤ 1
  /-- `srch.out` is an address (R36). -/
  out : q.out < 2 ^ p.addrW

/-- The substrate and the bus rate (10_state.md R34, R43, 41_reset_fsm.md R149). -/
structure Bus (c : Ctx) (q : Srch) (u : Sub) : Prop where
  /-- At most 8 bytes are armed, and none when the substrate is idle (R43). -/
  armed : u.rxPending ≤ 8 ∧ (u.busy = false → u.rxPending = 0)
  /-- `ctx.baud` is the rate last asked for (R34). -/
  baud : c.baud = u.rate
  /-- A reset pulse goes out at the reset rate (R149). -/
  resetRate : c.resetState ≠ .init → c.baud = .reset
  /-- Command bytes and search slots go out at the transfer rate (42_transfer_fsm.md, R202). -/
  transferRate : c.transferState ≠ .setup ∨ (q.phase ≠ .idle ∧ q.phase ≠ .pass) → c.baud = .transfer

/-- What holds of the machine whenever no step is executing. -/
structure Inv (s : State) : Prop where
  /-- The parameters are in their ranges (00_scope.md R9, R25). -/
  params : s.cfg.wf = true
  /-- Host memory is in its canonical form. -/
  memory : Memory.wf s.mem
  /-- The control state is one of the combinations R42 allows. -/
  control : Control s.ctx s.srch
  /-- Every counter is in its range. -/
  ranges : Ranges s.cfg s.ctx s.srch
  /-- The substrate and the rate are consistent. -/
  bus : Bus s.ctx s.srch s.sub

/-! ## Schedules

Schedule S0 of 95_test_vectors.md: the substrate completes every exchange before the next host or core
step, and the clock stands still. -/

/-- One reset attempt as a polling host sees it: the pulse, its echo, the wait, the check
(41_reset_fsm.md R147 with every `w_j = 1`). -/
def attemptEvents (w : Nat) (echo : Slots) : List Event :=
  [.request w, .complete echo, .request w, .request w]

/-- A polled operation that starts with a bus reset, up to the request before the one that ends the
reset: `INIT` and one attempt for each echo (R147). -/
def resetEvents (w : Nat) (echoes : List Slots) : List Event :=
  .request w :: echoes.flatMap (attemptEvents w)

/-- One command byte of a send as a polling host sees it: the byte, its echo, the wait, the capture
(42_transfer_fsm.md R178 with every `w_j = 1`). -/
def byteEvents (w : Nat) (echo : Slots) : List Event :=
  [.request w, .complete echo, .request w, .request w]

/-- A send past its reset: one round for each command byte, and the request that finds none left. -/
def sendEvents (w : Nat) (echoes : List Slots) : List Event :=
  echoes.flatMap (byteEvents w) ++ [.request w]

/-- The bytes a send with the given skip count and capacity stores (42_transfer_fsm.md R177). -/
def capturedBytes (p : Params) (skip : Byte) (capacity : Nat) (echoes : List Slots) : List Byte :=
  if skip = p.skipNever then [] else ((echoes.drop skip.toNat).take capacity).map (decodeByte p)

/-- One ROM bit position of a search: the read pair and its echo, the wait, the decision and the echo of
the write slot, the wait (70_reset_and_hazards.md R342: four core steps). -/
def bitEvents (pair write : Slots) : List Event :=
  [.core, .complete pair, .core, .core, .complete write, .core]

/-- A read pair on which all responding devices agree on the bit `x` (43_rom_search.md R204). -/
def agreedPair (p : Params) (x : Bool) (pair : Slots) : Prop :=
  slotBit p pair[0] = x ∧ slotBit p pair[1] = !x

end Sys2Proof.Machine
end

