-- ==== Sys2Proof/Certificates/Slice0/Obligations.lean ====
section
/-! DEFINITION. The statements for the provers, from the numbered rules of spec/. A statement over every state ranges over every configuration too, since the parameters are a field of the state. -/

open Sys2Proof Sys2Proof.Machine

/-! ## Encodings (30_encoding.md) -/

/-- R91 to R94: the encoder drops no bit of any operation, in any configuration. -/
def Obligations.DecodeInvertsEncode : Prop :=
  ∀ (p : Params) (i : Instr), i.wf p = true → decode p (encode p i) = .ok i

/-- R92: the six fields lie in the packed word at the places the rule gives, and the word has the
length it gives. -/
def Obligations.PackedWordHoldsEveryField : Prop :=
  ∀ (p : Params) (r : Req), r.fits p = true →
    bitField (pack p r) 0 8 = r.op.toNat
    ∧ bitField (pack p r) 8 16 = r.imm.toNat
    ∧ bitField (pack p r) 24 p.addrW = r.a
    ∧ bitField (pack p r) (24 + p.addrW) p.lenW = r.la
    ∧ bitField (pack p r) (24 + p.addrW + p.lenW) p.addrW = r.b
    ∧ bitField (pack p r) (24 + p.addrW + p.lenW + p.addrW) p.lenW = r.lb
    ∧ pack p r < 2 ^ (24 + 2 * p.addrW + 2 * p.lenW)
    ∧ unpack p (pack p r) = r

/-- R91, R93: the operands the decoder answers are within the record's field widths, whatever the word. -/
def Obligations.DecodedOperandsFit : Prop :=
  ∀ (p : Params) (w : Nat) (i : Instr), decode p w = .ok i → i.wf p = true

/-- R93, R97: two records that agree on the fields R93 names for the operation decode to the same
operation, and every record whose `OP` is one of the nine codes decodes to one. -/
def Obligations.UnusedFieldsAreIgnored : Prop :=
  ∀ (p : Params) (r q : Req), r.fits p = true → q.fits p = true → r.op = q.op →
    (r.op.toNat ∈ [3, 4, 8] → r.imm.extractLsb' 0 8 = q.imm.extractLsb' 0 8) →
    (r.op.toNat ∈ [6, 7] → r.imm = q.imm) →
    (r.op.toNat ∈ [3, 4, 5, 6, 7, 8, 9] → r.a = q.a) →
    (r.op.toNat ∈ [3, 5, 6, 7] → r.la = q.la) →
    (r.op.toNat ∈ [3, 7] → r.b = q.b) →
    (r.op.toNat = 3 → r.lb = q.lb) →
    decode p (pack p r) = decode p (pack p q)
    ∧ (1 ≤ r.op.toNat ∧ r.op.toNat ≤ 9 → ∃ i, decode p (pack p r) = .ok i)

/-- The words 95_test_vectors.md writes out, one for each operation, decode to what they stand for. -/
def Obligations.SpecWordsDecode : Prop :=
  decode Params.reference 0x0000000000000000000001 = .ok .clear
  ∧ decode Params.reference 0x0000000000000000000002 = .ok .reset
  ∧ decode Params.reference 0x0008008000090000000103 = .ok (.send 0x0000 9 0x0080 8 1)
  ∧ decode Params.reference 0x0000000000000200000804 = .ok (.search 0x0200 8)
  ∧ decode Params.reference 0x0000000000070080000005 = .ok (.crc8 0x0080 7)
  ∧ decode Params.reference 0x0000000000020001044006 = .ok (.crc16 0x0001 2 0x0440)
  ∧ decode Params.reference 0x0000040000000000123407 = .ok (.checkCrc16 0x0000 0 0x0400 0x1234)
  ∧ decode Params.reference 0x000000000000030000A508 = .ok (.encode 0xA5 0x0300)
  ∧ decode Params.reference 0x0000000000000300000009 = .ok (.decode 0x0300)

/-- R95: exactly the reserved codes and the codes of features not built in are illegal, and a request
with one records `Fault(IllegalOp)` with its `OP` and does nothing else (the list the request is taken from
and the recorded fault's form are the model's, notes/assumptions/1.md and 8.md). -/
def Obligations.IllegalCodesFaultBeforeAnyEffect : Prop :=
  ∀ (s : State) (w : Nat) (es : List Event), HostReady s → s.env = .request w :: es →
    (let op := BitVec.ofNat 8 w
     (op = 0x00 ∨ 0x0A ≤ op ∨ (op = 0x04 ∧ s.cfg.featureSearch = false)
        ∨ ((op = 0x06 ∨ op = 0x07) ∧ s.cfg.featureCrc16 = false)
      → step s = .next { s with env := es, fault := some (.illegalOp op) })
     ∧ (¬ (op = 0x00 ∨ 0x0A ≤ op ∨ (op = 0x04 ∧ s.cfg.featureSearch = false)
        ∨ ((op = 0x06 ∨ op = 0x07) ∧ s.cfg.featureCrc16 = false))
      → ∀ t o, step s = .next t → t.fault ≠ some (.illegalOp o)))

/-- R96: the packing of a result record into 32 bits. -/
def Obligations.ResultWordLayout : Prop :=
  ∀ (r : Result), r.pack.extractLsb' 0 2 = r.status.code ∧ r.pack.extractLsb' 2 14 = 0
    ∧ r.pack.extractLsb' 16 16 = r.value
    ∧ Status.wait.code = 0 ∧ Status.ok.code = 1 ∧ Status.noDevice.code = 2

/-- R96, R301: what a request can hand the host: RESET and SEND any status and the value 0, every other
operation but SEARCH `OK`, CLEAR and ENCODE with value 0, CRC8 and DECODE with a byte, CHECK_CRC16 with 0
or 1. R200, R270: a SEARCH start has no result yet; that the field then holds none is the model's choice
(notes/assumptions/11.md), and its `OK` (R96) comes with the end of the search (R209). -/
def Obligations.ResultsByOperation : Prop :=
  ∀ (i : Instr) (s t : State), exec i s = .next t →
    match i with
    | .clear => t.result = some ⟨.ok, 0⟩
    | .reset => ∃ st, t.result = some ⟨st, 0⟩
    | .send _ _ _ _ _ => ∃ st, t.result = some ⟨st, 0⟩
    | .search _ _ => t.result = none
    | .crc8 _ _ => ∃ v : Byte, t.result = some ⟨.ok, v.setWidth 16⟩
    | .crc16 _ _ _ => ∃ v, t.result = some ⟨.ok, v⟩
    | .checkCrc16 _ _ _ _ => t.result = some ⟨.ok, 0⟩ ∨ t.result = some ⟨.ok, 1⟩
    | .encode _ _ => t.result = some ⟨.ok, 0⟩
    | .decode _ => ∃ v : Byte, t.result = some ⟨.ok, v.setWidth 16⟩

/-! ## Bit codec (40_bit_codec.md) -/

/-- R120 to R123: the encoder and the decoder slot by slot. -/
def Obligations.CodecSlotBySlot : Prop :=
  ∀ (p : Params) (v : Byte) (x : Slots) (i : Nat) (hi : i < 8),
    (encodeByte p v)[i] = (if v.getLsbD i then p.slotOne else p.slotZero)
    ∧ (decodeByte p x).getLsbD i = decide (x[i] = p.slotOne)

/-- R127: the round trip, its converse on the image alone, and that slots other than the "device
asserts" pattern are not told apart; for any two distinct slot patterns, `0xFF` and `0x00` among them. -/
def Obligations.CodecRoundTrip : Prop :=
  ∀ (p : Params), p.slotOne ≠ p.slotZero →
    (∀ v : Byte, decodeByte p (encodeByte p v) = v)
    ∧ (∀ x : Slots, encodeByte p (decodeByte p x) = x ↔
        ∀ (i : Nat) (hi : i < 8), x[i] = p.slotZero ∨ x[i] = p.slotOne)
    ∧ (∀ x y : Byte, x ≠ p.slotOne → y ≠ p.slotOne → slotBit p x = slotBit p y)

/-- R124: ENCODE. -/
def Obligations.EncodeWritesTheSlots : Prop :=
  ∀ (v : Byte) (a : Nat) (s : State), HostReady s →
    (Memory.wf s.mem → Accessible s.cfg a 8 →
      ∃ m, exec (.encode v a) s = .next { s with mem := m, result := some ⟨.ok, 0⟩ }
        ∧ (∀ i, i < 8 → m.read (a + i) = if v.getLsbD i then s.cfg.slotOne else s.cfg.slotZero)
        ∧ ∀ x, x < a ∨ a + 8 ≤ x → m.read x = s.mem.read x)
    ∧ (∀ k, k < 8 → Accessible s.cfg a k → inWindow s.cfg (a + k) = false →
        exec (.encode v a) s = .fault (.memRange (a + k) .write))

/-- R125: DECODE. -/
def Obligations.DecodeReadsTheSlots : Prop :=
  ∀ (a : Nat) (s : State), HostReady s →
    (Accessible s.cfg a 8 →
      ∃ v : Byte, exec (.decode a) s = .next { s with result := some ⟨.ok, v.setWidth 16⟩ }
        ∧ ∀ i, i < 8 → v.getLsbD i = decide (s.mem.read (a + i) = s.cfg.slotOne))
    ∧ (∀ k, k < 8 → Accessible s.cfg a k → inWindow s.cfg (a + k) = false →
        exec (.decode a) s = .fault (.memRange (a + k) .read))

/-! ## Host memory (20_memory.md) -/

/-- R61: one access of the core, inside and outside `HOST_WINDOW`. -/
def Obligations.AccessOutsideTheWindowFaults : Prop :=
  ∀ (s : State) (a : Nat) (v : Byte),
    (a < 2 ^ s.cfg.addrW ∧ (∃ r ∈ s.cfg.window, r.base ≤ a ∧ a < r.base + r.size) →
      memRead a s = .ok (s.mem.read a) ∧ memWrite a v s = .ok { s with mem := s.mem.write a v })
    ∧ (¬ (a < 2 ^ s.cfg.addrW ∧ ∃ r ∈ s.cfg.window, r.base ≤ a ∧ a < r.base + r.size) →
      memRead a s = .error (.memRange a .read) ∧ memWrite a v s = .error (.memRange a .write))

/-- R67, R61: a host write between requests changes that byte and nothing else, and the core's next access
to it reads the byte written where it lies in `HOST_WINDOW` and faults where it does not. That the host
may write every address below 2^ADDR_W is the model's reading (notes/assumptions/15.md), and that its
write is the first pending action the model's form (notes/assumptions/1.md). -/
def Obligations.HostWriteIsSeenByTheCore : Prop :=
  ∀ (s : State) (a : Nat) (v : Byte) (es : List Event), HostReady s → Memory.wf s.mem →
    a < 2 ^ s.cfg.addrW → s.env = .hostWrite a v :: es →
    ∃ m, step s = .next { s with mem := m, env := es } ∧ m.read a = v
      ∧ (∀ x, x ≠ a → m.read x = s.mem.read x)
      ∧ (inWindow s.cfg a = true → memRead a { s with mem := m, env := es } = .ok v)
      ∧ (inWindow s.cfg a = false →
          memRead a { s with mem := m, env := es } = .error (.memRange a .read))

/-! ## Reset machine (41_reset_fsm.md) -/

/-- R141, R140: the action of `INIT`. -/
def Obligations.ResetInitAction : Prop :=
  ∀ (s : State), s.ctx.resetState = .init →
    resetStep s = (.wait,
      { s with
        ctx := { s.ctx with
          baud := .reset, resetRetryBudget := s.cfg.resetAttempts, resetState := .sendPresence }
        sub := { s.sub with rate := .reset } })

/-- R142, R76, R70: the action of `SEND_PRESENCE`: one exchange of one byte, the receive armed with it
(the substrate's count of slots to send is the model's, notes/assumptions/12.md). -/
def Obligations.ResetPulseAction : Prop :=
  ∀ (s : State), s.ctx.resetState = .sendPresence →
    resetStep s = (.wait,
      { s with
        ctx := { s.ctx with
          tx := s.ctx.tx.set 0 s.cfg.resetByte, lastOperationTimestamp := s.now, resetState := .await }
        sub := ⟨true, 1, 1, s.sub.rate⟩ })

/-- R143, R173, R76: both `AWAIT` states advance exactly when the exchange has ended, by idle or by the
timeout, and do nothing else. -/
def Obligations.AwaitStatesPollTheExchange : Prop :=
  ∀ (args : TransferArgs) (s : State),
    (s.sub.busy = false ∨ s.cfg.timeoutMs ≤ s.now - s.ctx.lastOperationTimestamp →
      (s.ctx.resetState = .await →
        resetStep s = (.wait, { s with ctx := { s.ctx with resetState := .check } }))
      ∧ (s.ctx.transferState = .await →
        transferStep args s = .ok (.wait, { s with ctx := { s.ctx with transferState := .consume } })))
    ∧ (s.sub.busy = true → s.now - s.ctx.lastOperationTimestamp < s.cfg.timeoutMs →
      (s.ctx.resetState = .await → resetStep s = (.wait, s))
      ∧ (s.ctx.transferState = .await → transferStep args s = .ok (.wait, s)))

/-- R144, R77: the action of `CHECK`, for the byte received, and after a timeout for any byte (a numbered
free value, notes/assumptions/3.md). -/
def Obligations.ResetCheckAction : Prop :=
  ∀ (s : State) (echo : Byte) (n : Nat), s.ctx.resetState = .check →
    (s.sub.busy = false → echo = s.ctx.rx[0] ∧ n = s.draws) →
    (s.sub.busy = true → echo = (Config.timedOutRx s.draws)[0] ∧ n = s.draws + 1) →
    (echo ≠ s.cfg.resetByte →
      resetStep s = (.wait, { s with draws := n, ctx := { s.ctx with resetState := .finalize } }))
    ∧ (echo = s.cfg.resetByte → 1 < s.ctx.resetRetryBudget →
      resetStep s = (.wait, { s with draws := n, ctx := { s.ctx with
        resetRetryBudget := s.ctx.resetRetryBudget - 1, resetState := .sendPresence } }))
    ∧ (echo = s.cfg.resetByte → s.ctx.resetRetryBudget ≤ 1 →
      resetStep s = (.wait, { s with draws := n, ctx := { s.ctx with
        resetRetryBudget := 0, resetState := .finalize } }))

/-- R145: the action of `FINALIZE`. -/
def Obligations.ResetFinalizeAction : Prop :=
  ∀ (s : State), s.ctx.resetState = .finalize →
    resetStep s = (if s.ctx.resetRetryBudget = 0 then .noDevice else .ok,
      { s with
        ctx := { s.ctx with baud := .transfer, resetState := .init }
        sub := { s.sub with rate := .transfer } })

/-- R146: RESET completes whenever it is allowed: one state's action, the result of that action, and
the context given back when it is not `WAIT`; it faults while a send holds the context. -/
def Obligations.ResetRequestRunsOneState : Prop :=
  ∀ (s : State), s.fault = none →
    (s.ctx.owner = .idle ∨ s.ctx.owner = .reset →
      ∃ st t, resetStep { s with ctx := { s.ctx with owner := .reset } } = (st, t)
        ∧ exec .reset s = .next { t with
            ctx := { t.ctx with owner := if st = .wait then .reset else .idle }
            result := some ⟨st, 0⟩ })
    ∧ (s.ctx.owner = .transfer → exec .reset s = .fault (.overlap 0x02 .transfer))

/-- R148, and the frame of RESET: what a RESET leaves unchanged. -/
def Obligations.ResetRequestFrame : Prop :=
  ∀ (s t : State), exec .reset s = .next t →
    t.cfg = s.cfg ∧ t.srch = s.srch ∧ t.now = s.now ∧ t.fault = s.fault ∧ t.env = s.env
    ∧ (∀ x, t.mem.read x = s.mem.read x)
    ∧ t.ctx.transferState = s.ctx.transferState ∧ t.ctx.commandSource = s.ctx.commandSource
    ∧ t.ctx.commandCursor = s.ctx.commandCursor ∧ t.ctx.commandRemaining = s.ctx.commandRemaining
    ∧ t.ctx.dataCursor = s.ctx.dataCursor ∧ t.ctx.dataRemaining = s.ctx.dataRemaining
    ∧ t.ctx.readSkip = s.ctx.readSkip ∧ t.ctx.rx = s.ctx.rx
    ∧ (∀ (i : Nat) (hi : i < 8), i ≠ 0 → t.ctx.tx[i] = s.ctx.tx[i])
    ∧ (s.ctx.resetState ≠ .sendPresence → t.ctx.tx = s.ctx.tx
        ∧ t.ctx.lastOperationTimestamp = s.ctx.lastOperationTimestamp
        ∧ t.sub.busy = s.sub.busy ∧ t.sub.rxPending = s.sub.rxPending)

/-- R147 with every `w_j = 1`, no device: a reset whose echoes all equal the reset byte answers `WAIT`
up to its last request and then `NO_DEVICE`, after exactly `RESET_ATTEMPTS` pulses. -/
def Obligations.ResetGivesUpAfterExactlyItsAttempts : Prop :=
  ∀ (s : State) (echoes : List Slots) (es : List Event),
    let w := encode s.cfg .reset
    HostReady s → s.ctx.owner = .idle → s.ctx.resetState = .init → s.cfg.wf = true →
    echoes.length = s.cfg.resetAttempts.toNat →
    (∀ e ∈ echoes, e[0] = s.cfg.resetByte) →
    s.env = resetEvents w echoes ++ .request w :: es →
    (∀ k, 0 < k → k ≤ (resetEvents w echoes).length →
      ∃ t, core.run k s = .next t ∧ t.result = some ⟨.wait, 0⟩)
    ∧ ∃ t, core.run ((resetEvents w echoes).length + 1) s = .next t
      ∧ t.result = some ⟨.noDevice, 0⟩ ∧ t.ctx.owner = .idle ∧ t.ctx.resetState = .init
      ∧ t.ctx.resetRetryBudget = 0 ∧ t.ctx.baud = .transfer ∧ t.env = es

/-- R147 with every `w_j = 1`, presence on a later attempt: the failed attempts cost one each, and the
reset then answers `OK`. -/
def Obligations.ResetSucceedsOnTheAttemptThatSeesPresence : Prop :=
  ∀ (s : State) (fails : List Slots) (seen : Slots) (es : List Event),
    let w := encode s.cfg .reset
    HostReady s → s.ctx.owner = .idle → s.ctx.resetState = .init →
    fails.length < s.cfg.resetAttempts.toNat →
    (∀ e ∈ fails, e[0] = s.cfg.resetByte) → seen[0] ≠ s.cfg.resetByte →
    s.env = resetEvents w (fails ++ [seen]) ++ .request w :: es →
    ∃ t, core.run ((resetEvents w (fails ++ [seen])).length + 1) s = .next t
      ∧ t.result = some ⟨.ok, 0⟩ ∧ t.ctx.owner = .idle ∧ t.ctx.resetState = .init
      ∧ t.ctx.resetRetryBudget.toNat = s.cfg.resetAttempts.toNat - fails.length
      ∧ t.ctx.baud = .transfer ∧ t.env = es

/-! ## Transfer machine (42_transfer_fsm.md) -/

/-- R171: `SETUP` runs one reset step, passes `WAIT` and `NO_DEVICE` on, and on `OK` takes the snapshot of
its arguments. -/
def Obligations.TransferSetupAction : Prop :=
  ∀ (args : TransferArgs) (s t : State) (st : Status), s.ctx.transferState = .setup →
    resetStep s = (st, t) →
    (st = .wait → transferStep args s = .ok (.wait, t))
    ∧ (st = .noDevice → transferStep args s = .ok (.noDevice, t) ∧ t.ctx.transferState = .setup
      ∧ t.ctx.resetState = .init)
    ∧ (st = .ok → transferStep args s = .ok (.wait,
        { t with ctx := { t.ctx with
          commandSource := args.src, commandCursor := args.cmdAddr, commandRemaining := args.cmdLen
          dataCursor := args.dataAddr, dataRemaining := args.dataLen, readSkip := args.skip
          transferState := .writeByte } }))

/-- R172, R176: `WRITE_BYTE`: done when no byte is left; else the next byte, from host memory or the
search's constant, goes out as eight slots (their count in the substrate is the model's,
notes/assumptions/12.md). -/
def Obligations.TransferWriteByteAction : Prop :=
  ∀ (args : TransferArgs) (s : State), s.ctx.transferState = .writeByte →
    (s.ctx.commandRemaining = 0 →
      transferStep args s = .ok (.ok, { s with ctx := { s.ctx with transferState := .setup } }))
    ∧ (s.ctx.commandRemaining ≠ 0 → s.ctx.commandSource = .host →
        inWindow s.cfg s.ctx.commandCursor = false →
        transferStep args s = .error (.memRange s.ctx.commandCursor .read))
    ∧ (∀ b : Byte, s.ctx.commandRemaining ≠ 0 →
        (s.ctx.commandSource = .host → inWindow s.cfg s.ctx.commandCursor = true
          ∧ b = s.mem.read s.ctx.commandCursor) →
        (s.ctx.commandSource = .searchConst → b = s.cfg.searchRomCmd) →
        transferStep args s = .ok (.wait,
          { s with
            ctx := { s.ctx with
              commandCursor := s.ctx.commandCursor + 1
              commandRemaining := s.ctx.commandRemaining - 1
              tx := encodeByte s.cfg b
              lastOperationTimestamp := s.now
              transferState := .await }
            sub := ⟨true, 8, 8, s.sub.rate⟩ }))

/-- R174, R77: `CONSUME`: the decoded byte is stored, or the skip counter counts down modulo 256, or
nothing; after a timeout for any received slots (a numbered free value, notes/assumptions/3.md). -/
def Obligations.TransferConsumeAction : Prop :=
  ∀ (args : TransferArgs) (s : State) (x : Slots) (n : Nat), s.ctx.transferState = .consume →
    (s.sub.busy = false → x = s.ctx.rx ∧ n = s.draws) →
    (s.sub.busy = true → x = Config.timedOutRx s.draws ∧ n = s.draws + 1) →
    (s.ctx.readSkip = 0 → 0 < s.ctx.dataRemaining → inWindow s.cfg s.ctx.dataCursor = true →
      transferStep args s = .ok (.wait,
        { s with
          draws := n
          mem := s.mem.write s.ctx.dataCursor (decodeByte s.cfg x)
          ctx := { s.ctx with
            dataCursor := s.ctx.dataCursor + 1, dataRemaining := s.ctx.dataRemaining - 1
            transferState := .writeByte } }))
    ∧ (s.ctx.readSkip = 0 → 0 < s.ctx.dataRemaining → inWindow s.cfg s.ctx.dataCursor = false →
      transferStep args s = .error (.memRange s.ctx.dataCursor .write))
    ∧ (¬ (s.ctx.readSkip = 0 ∧ 0 < s.ctx.dataRemaining) → s.ctx.readSkip ≠ s.cfg.skipNever →
      transferStep args s = .ok (.wait, { s with draws := n, ctx := { s.ctx with
        readSkip := s.ctx.readSkip - 1, transferState := .writeByte } }))
    ∧ (¬ (s.ctx.readSkip = 0 ∧ 0 < s.ctx.dataRemaining) → s.ctx.readSkip = s.cfg.skipNever →
      transferStep args s = .ok (.wait, { s with draws := n, ctx := { s.ctx with
        transferState := .writeByte } }))

/-- R175: SEND, with the owner it takes and gives back, its result and its faults. -/
def Obligations.SendRequestRunsOneState : Prop :=
  ∀ (a la b lb : Nat) (skip : Byte) (s : State), s.fault = none →
    (s.ctx.owner = .idle ∨ s.ctx.owner = .transfer →
      let u := { s with ctx := { s.ctx with owner := .transfer } }
      (∀ st t, transferStep ⟨.host, a, la, b, lb, skip⟩ u = .ok (st, t) →
        exec (.send a la b lb skip) s = .next { t with
          ctx := { t.ctx with owner := if st = .wait then .transfer else .idle }
          result := some ⟨st, 0⟩ })
      ∧ (∀ r, transferStep ⟨.host, a, la, b, lb, skip⟩ u = .error r →
        exec (.send a la b lb skip) s = .fault r))
    ∧ (s.ctx.owner = .reset → exec (.send a la b lb skip) s = .fault (.overlap 0x03 .reset))

/-- R175, R172, R174: SEND completes whenever it is allowed and the one byte its state moves lies in the
window. -/
def Obligations.SendCompletes : Prop :=
  ∀ (a la b lb : Nat) (skip : Byte) (s : State), s.fault = none →
    s.ctx.owner = .idle ∨ s.ctx.owner = .transfer →
    (s.ctx.transferState = .writeByte → s.ctx.commandRemaining ≠ 0 → s.ctx.commandSource = .host →
      inWindow s.cfg s.ctx.commandCursor = true) →
    (s.ctx.transferState = .consume → s.ctx.readSkip = 0 → 0 < s.ctx.dataRemaining →
      inWindow s.cfg s.ctx.dataCursor = true) →
    ∃ st t, exec (.send a la b lb skip) s = .next t ∧ t.result = some ⟨st, 0⟩
      ∧ (t.ctx.owner = .idle ↔ st ≠ .wait)

/-- The frame of SEND (R170 to R175): what a SEND leaves unchanged; it stores at most one byte, at the
data cursor, in `CONSUME`. -/
def Obligations.SendRequestFrame : Prop :=
  ∀ (a la b lb : Nat) (skip : Byte) (s t : State), exec (.send a la b lb skip) s = .next t →
    t.cfg = s.cfg ∧ t.srch = s.srch ∧ t.now = s.now ∧ t.fault = s.fault ∧ t.env = s.env
    ∧ t.ctx.rx = s.ctx.rx
    ∧ (s.ctx.transferState = .consume ∧ s.ctx.readSkip = 0 ∧ 0 < s.ctx.dataRemaining →
        ∀ x, x ≠ s.ctx.dataCursor → t.mem.read x = s.mem.read x)
    ∧ (¬ (s.ctx.transferState = .consume ∧ s.ctx.readSkip = 0 ∧ 0 < s.ctx.dataRemaining) →
        ∀ x, t.mem.read x = s.mem.read x)
    ∧ (s.ctx.transferState = .setup →
        (∀ (i : Nat) (hi : i < 8), i ≠ 0 → t.ctx.tx[i] = s.ctx.tx[i])
        ∧ (t.ctx.transferState = .setup → t.ctx.commandSource = s.ctx.commandSource
          ∧ t.ctx.commandCursor = s.ctx.commandCursor
          ∧ t.ctx.commandRemaining = s.ctx.commandRemaining
          ∧ t.ctx.dataCursor = s.ctx.dataCursor ∧ t.ctx.dataRemaining = s.ctx.dataRemaining
          ∧ t.ctx.readSkip = s.ctx.readSkip))
    ∧ (s.ctx.transferState ≠ .setup → t.ctx.resetState = s.ctx.resetState
        ∧ t.ctx.resetRetryBudget = s.ctx.resetRetryBudget ∧ t.ctx.baud = s.ctx.baud
        ∧ t.ctx.commandSource = s.ctx.commandSource)
    ∧ (s.ctx.transferState ≠ .setup → s.ctx.transferState ≠ .writeByte →
        t.ctx.commandCursor = s.ctx.commandCursor ∧ t.ctx.commandRemaining = s.ctx.commandRemaining
        ∧ t.ctx.tx = s.ctx.tx ∧ t.ctx.lastOperationTimestamp = s.ctx.lastOperationTimestamp
        ∧ t.sub = s.sub)
    ∧ (s.ctx.transferState ≠ .setup → s.ctx.transferState ≠ .consume →
        t.ctx.dataCursor = s.ctx.dataCursor ∧ t.ctx.dataRemaining = s.ctx.dataRemaining
        ∧ t.ctx.readSkip = s.ctx.readSkip)

/-- R177: a send past its `SETUP`, under schedule S0, transmits once for each command byte, stores exactly
the decoded echoes after the skip that fit the data buffer, in order, changes no other byte, and ends
`OK`; the operands of its polls are ignored (R175). The premise on `SKIP_NEVER` is the source's value. -/
def Obligations.SendStoresTheEchoesAfterTheSkip : Prop :=
  ∀ (s : State) (a la b lb : Nat) (skip : Byte) (echoes : List Slots) (es : List Event),
    let w := encode s.cfg (.send a la b lb skip)
    let stored := capturedBytes s.cfg s.ctx.readSkip s.ctx.dataRemaining echoes
    HostReady s → s.ctx.owner = .transfer → s.ctx.transferState = .writeByte →
    s.ctx.commandSource = .host → s.ctx.commandRemaining = echoes.length →
    s.cfg.skipNever = 0xFF → Memory.wf s.mem →
    (Instr.send a la b lb skip).wf s.cfg = true →
    Accessible s.cfg s.ctx.commandCursor echoes.length →
    Accessible s.cfg s.ctx.dataCursor stored.length →
    s.env = sendEvents w echoes ++ es →
    ∃ t, core.run (sendEvents w echoes).length s = .next t
      ∧ t.result = some ⟨.ok, 0⟩ ∧ t.ctx.owner = .idle ∧ t.ctx.transferState = .setup
      ∧ t.env = es ∧ t.ctx.commandCursor = s.ctx.commandCursor + echoes.length
      ∧ t.ctx.dataCursor = s.ctx.dataCursor + stored.length
      ∧ (∀ j (hj : j < stored.length), t.mem.read (s.ctx.dataCursor + j) = stored[j])
      ∧ ∀ x, x < s.ctx.dataCursor ∨ s.ctx.dataCursor + stored.length ≤ x →
          t.mem.read x = s.mem.read x

/-! ## ROM search (43_rom_search.md) -/

/-- R200: SEARCH starts the sequencer and changes nothing else; there is no result yet (held as none, the
model's choice, notes/assumptions/11.md). Where it is not built in or another operation holds the context
it faults. -/
def Obligations.SearchRequestStartsTheSequencer : Prop :=
  ∀ (a : Nat) (max : Byte) (s : State), HostReady s →
    (s.cfg.featureSearch = false → exec (.search a max) s = .fault (.illegalOp 0x04))
    ∧ (s.cfg.featureSearch = true → s.ctx.owner ≠ .idle →
      exec (.search a max) s = .fault (.overlap 0x04 s.ctx.owner))
    ∧ (s.cfg.featureSearch = true → s.ctx.owner = .idle →
      exec (.search a max) s = .next { s with
        ctx := { s.ctx with owner := .search }
        srch := { phase := .pass, out := a, max := max, found := 0, lastCollision := 0,
                  currentCollision := 0, bit := 0 }
        result := none })

/-- R201, R209: the phase `S_PASS`: capacity ends the search; else one transfer step, whose `NO_DEVICE`
ends the search and whose `OK` starts position 1. -/
def Obligations.SearchPassAction : Prop :=
  ∀ (s : State), s.srch.phase = .pass →
    (s.srch.max ≤ s.srch.found →
      searchStep s = .ok { s with
        ctx := { s.ctx with owner := .idle }
        srch := { s.srch with phase := .idle }
        result := some ⟨.ok, s.srch.found.setWidth 16⟩ })
    ∧ (∀ st t, s.srch.found < s.srch.max →
        transferStep ⟨.searchConst, 0, 1, 0, 0, s.cfg.skipNever⟩ s = .ok (st, t) →
        (st = .wait → searchStep s = .ok t)
        ∧ (st = .noDevice → searchStep s = .ok { t with
            ctx := { t.ctx with owner := .idle }
            srch := { t.srch with phase := .idle }
            result := some ⟨.ok, t.srch.found.setWidth 16⟩ })
        ∧ (st = .ok → searchStep s = .ok { t with
            srch := { t.srch with currentCollision := 0, bit := 1, phase := .pairStart } }))

/-- R202, R203, R208, R76: the read pair, and the two waits with what follows them: the decision, the next
position, the next pass, or the end with the count of devices found (R209). The substrate's count of slots
to send is the model's (notes/assumptions/12.md). -/
def Obligations.SearchPairAndWaitActions : Prop :=
  ∀ (s : State),
    let done := s.sub.busy = false ∨ s.cfg.timeoutMs ≤ s.now - s.ctx.lastOperationTimestamp
    (s.srch.phase = .pairStart → searchStep s = .ok { s with
        ctx := { s.ctx with
          tx := (s.ctx.tx.set 0 s.cfg.slotOne).set 1 s.cfg.slotOne
          lastOperationTimestamp := s.now }
        sub := ⟨true, 2, 2, s.sub.rate⟩
        srch := { s.srch with phase := .pairWait } })
    ∧ (s.srch.phase = .pairWait → (done → searchStep s = .ok { s with
          srch := { s.srch with phase := .decide } })
        ∧ (¬ done → searchStep s = .ok s))
    ∧ (s.srch.phase = .writeWait → (¬ done → searchStep s = .ok s)
        ∧ (done → s.srch.bit < 64 → searchStep s = .ok { s with
            srch := { s.srch with bit := s.srch.bit + 1, phase := .pairStart } })
        ∧ (done → 64 ≤ s.srch.bit → s.srch.currentCollision = 0 → searchStep s = .ok { s with
            ctx := { s.ctx with owner := .idle }
            srch := { s.srch with found := s.srch.found + 1, phase := .idle }
            result := some ⟨.ok, (s.srch.found + 1).setWidth 16⟩ })
        ∧ (done → 64 ≤ s.srch.bit → s.srch.currentCollision ≠ 0 → searchStep s = .ok { s with
            srch := { s.srch with
              found := s.srch.found + 1, lastCollision := s.srch.currentCollision, bit := 0
              phase := .pass } }))

/-- R204, R205, R206, R207, R209, R101: `S_DECIDE`. Silence ends the search. Otherwise the chosen bit is the
agreed one, or at a collision the tie-break's (replay before the last collision, 0 at it, 1 after it, a
chosen or replayed 1 recorded as the deepest collision but for the 0 at it), it is written into its place
in the current slot's byte and its write slot goes out; after a timeout for any pair (R77).
The model's own: a replay at `srch.found = 0`, which never occurs, reads slot 0 (notes/assumptions/19.md);
the draw counter (notes/assumptions/3.md); the substrate's count of slots to send
(notes/assumptions/12.md). -/
def Obligations.SearchDecideAction : Prop :=
  ∀ (s : State) (x : Slots) (n : Nat), s.srch.phase = .decide →
    (s.sub.busy = false → x = s.ctx.rx ∧ n = s.draws) →
    (s.sub.busy = true → x = Config.timedOutRx s.draws ∧ n = s.draws + 1) →
    let p := s.srch.bit.toNat
    let cur := s.srch.out + 8 * s.srch.found.toNat + (p - 1) / 8
    let prev := s.srch.out + 8 * (s.srch.found.toNat - 1) + (p - 1) / 8
    let selected (sel : Bool) (cc : BitVec 7) : State :=
      { s with
        draws := n
        mem := s.mem.write cur (setBit (s.mem.read cur) ((p - 1) % 8) sel)
        ctx := { s.ctx with
          tx := s.ctx.tx.set 0 (if sel then s.cfg.slotOne else s.cfg.slotZero)
          lastOperationTimestamp := s.now }
        sub := ⟨true, 1, 1, s.sub.rate⟩
        srch := { s.srch with currentCollision := cc, phase := .writeWait } }
    let old := s.srch.currentCollision
    let replayed := (s.mem.read prev).getLsbD ((p - 1) % 8)
    (x[0] = s.cfg.slotOne → x[1] = s.cfg.slotOne →
      searchStep s = .ok { s with
        draws := n
        ctx := { s.ctx with owner := .idle }
        srch := { s.srch with phase := .idle }
        result := some ⟨.ok, s.srch.found.setWidth 16⟩ })
    ∧ (inWindow s.cfg cur = true →
        (x[0] = s.cfg.slotOne → x[1] ≠ s.cfg.slotOne → searchStep s = .ok (selected true old))
        ∧ (x[0] ≠ s.cfg.slotOne → x[1] = s.cfg.slotOne → searchStep s = .ok (selected false old))
        ∧ (x[0] ≠ s.cfg.slotOne → x[1] ≠ s.cfg.slotOne →
            (s.srch.bit < s.srch.lastCollision → inWindow s.cfg prev = true →
              searchStep s = .ok (selected replayed (if replayed then s.srch.bit else old)))
            ∧ (s.srch.bit = s.srch.lastCollision → searchStep s = .ok (selected false old))
            ∧ (s.srch.lastCollision < s.srch.bit → searchStep s = .ok (selected true s.srch.bit))))
    ∧ (inWindow s.cfg cur = false → ¬ (x[0] = s.cfg.slotOne ∧ x[1] = s.cfg.slotOne) →
        (x[0] ≠ s.cfg.slotOne → x[1] ≠ s.cfg.slotOne → s.srch.bit < s.srch.lastCollision →
          inWindow s.cfg prev = true) →
        searchStep s = .error (.memRange cur .read))
    ∧ (x[0] ≠ s.cfg.slotOne → x[1] ≠ s.cfg.slotOne → s.srch.bit < s.srch.lastCollision →
        inWindow s.cfg prev = false → searchStep s = .error (.memRange prev .read))

/-- R209: a core step of a search either goes on, the host still without a result, or ends the search:
context and sequencer idle, and the result is `OK` with the count. -/
def Obligations.SearchEndsWithItsCount : Prop :=
  ∀ (s t : State), s.ctx.owner = .search → s.srch.phase ≠ .idle → searchStep s = .ok t →
    (t.ctx.owner = .search ∧ t.srch.phase ≠ .idle ∧ t.result = s.result)
    ∨ (t.ctx.owner = .idle ∧ t.srch.phase = .idle
        ∧ t.result = some ⟨.ok, t.srch.found.setWidth 16⟩)

/-- R201 to R208: a core step of a search completes in every phase, but for an access of `S_DECIDE`
outside the window; in `S_PASS` it never touches host memory. -/
def Obligations.SearchStepCompletes : Prop :=
  ∀ (s : State), Inv s → s.ctx.owner = .search →
    (s.srch.phase = .decide →
      inWindow s.cfg (s.srch.out + 8 * s.srch.found.toNat + (s.srch.bit.toNat - 1) / 8) = true
      ∧ (s.srch.bit < s.srch.lastCollision →
        inWindow s.cfg (s.srch.out + 8 * (s.srch.found.toNat - 1) + (s.srch.bit.toNat - 1) / 8)
          = true)) →
    ∃ t, searchStep s = .ok t ∧ (s.srch.phase = .pass → t.mem = s.mem)

/-- R211: a core step of a search writes no byte but one of the current 8-byte slot, and only in
`S_DECIDE`. -/
def Obligations.SearchWritesOnlyItsSlot : Prop :=
  ∀ (s t : State), s.ctx.owner = .search → Inv s → searchStep s = .ok t →
    (∀ x, x < s.srch.out + 8 * s.srch.found.toNat ∨ s.srch.out + 8 * s.srch.found.toNat + 8 ≤ x →
      t.mem.read x = s.mem.read x)
    ∧ (s.srch.phase ≠ .decide → ∀ x, t.mem.read x = s.mem.read x)

/-- R204, R206, R208, R212 for a bus with one device: under schedule S0 a pass on which every read pair
agrees takes four core steps a position, leaves the device's 64 bits in the slot, least significant bit
of byte 0 first, touches nothing else in memory and ends the search with one more device. -/
def Obligations.OneDevicePassRecordsItsRom : Prop :=
  ∀ (s : State) (rom : List Bool) (pairs writes : List Slots) (es : List Event),
    let base := s.srch.out + 8 * s.srch.found.toNat
    let tape := (List.zipWith bitEvents pairs writes).flatten
    Inv s → s.fault = none → s.ctx.owner = .search → s.srch.phase = .pairStart → s.srch.bit = 1 →
    s.srch.currentCollision = 0 →
    rom.length = 64 → pairs.length = 64 → writes.length = 64 →
    (∀ (i : Nat) (hr : i < rom.length) (hp : i < pairs.length), agreedPair s.cfg rom[i] pairs[i]) →
    Accessible s.cfg base 8 → s.env = tape ++ es →
    ∃ t, core.run tape.length s = .next t
      ∧ tape.length = 6 * 64
      ∧ t.ctx.owner = .idle ∧ t.srch.phase = .idle ∧ t.env = es
      ∧ t.srch.found = s.srch.found + 1
      ∧ t.result = some ⟨.ok, (s.srch.found + 1).setWidth 16⟩
      ∧ (∀ (i : Nat) (hr : i < rom.length),
          (t.mem.read (base + i / 8)).getLsbD (i % 8) = rom[i])
      ∧ ∀ x, x < base ∨ base + 8 ≤ x → t.mem.read x = s.mem.read x

/-! ## CRC cores (44_crc.md) -/

/-- R241: the two CRC-8 datapaths give the same result on every input, whatever the polynomial. -/
def Obligations.Crc8DatapathsAgree : Prop :=
  ∀ (p : Params) (bytes : List Byte),
    crc8 { p with crc8Impl := .bitwise } bytes = crc8 { p with crc8Impl := .table } bytes

/-- R243: the odd-parity form equals the bitwise form for the default polynomial. -/
def Obligations.Crc16FormsAgree : Prop :=
  ∀ (bytes : List Byte) (seed : Half),
    bytes.foldl crc16ByteOddParity seed = bytes.foldl (crc16ByteBitwise 0xA001) seed

/-- R242: CRC8, and its empty input. -/
def Obligations.Crc8Request : Prop :=
  ∀ (a la : Nat) (s : State), HostReady s →
    (Accessible s.cfg a la →
      exec (.crc8 a la) s =
        .next { s with result := some ⟨.ok, (crc8 s.cfg (bytesAt s.mem a la)).setWidth 16⟩ })
    ∧ exec (.crc8 a 0) s = .next { s with result := some ⟨.ok, 0⟩ }
    ∧ (∀ k, k < la → Accessible s.cfg a k → inWindow s.cfg (a + k) = false →
        exec (.crc8 a la) s = .fault (.memRange (a + k) .read))

/-- R244: CRC16, its empty input, its chaining over a split input, and its fault where it is not built in. -/
def Obligations.Crc16Request : Prop :=
  ∀ (a la : Nat) (seed : Half) (s : State), HostReady s →
    (s.cfg.featureCrc16 = true →
      (Accessible s.cfg a la →
        exec (.crc16 a la seed) s =
          .next { s with result := some ⟨.ok, crc16 s.cfg (bytesAt s.mem a la) seed⟩ })
      ∧ exec (.crc16 a 0 seed) s = .next { s with result := some ⟨.ok, seed⟩ }
      ∧ (∀ k, k < la → Accessible s.cfg a k → inWindow s.cfg (a + k) = false →
          exec (.crc16 a la seed) s = .fault (.memRange (a + k) .read)))
    ∧ (s.cfg.featureCrc16 = false → exec (.crc16 a la seed) s = .fault (.illegalOp 0x06))
    ∧ (∀ n, crc16 s.cfg (bytesAt s.mem a (la + n)) seed =
        crc16 s.cfg (bytesAt s.mem (a + la) n) (crc16 s.cfg (bytesAt s.mem a la) seed))

/-- R245, R246: CHECK_CRC16, and its fault where it is not built in. -/
def Obligations.CheckCrc16Request : Prop :=
  ∀ (a la b : Nat) (seed : Half) (s : State), HostReady s →
    (s.cfg.featureCrc16 = true →
      (Accessible s.cfg a la → Accessible s.cfg b 2 →
        let c := ~~~ crc16 s.cfg (bytesAt s.mem a la) seed
        (s.mem.read b = c.extractLsb' 0 8 ∧ s.mem.read (b + 1) = c.extractLsb' 8 8 →
          exec (.checkCrc16 a la b seed) s = .next { s with result := some ⟨.ok, 1⟩ })
        ∧ (¬ (s.mem.read b = c.extractLsb' 0 8 ∧ s.mem.read (b + 1) = c.extractLsb' 8 8) →
          exec (.checkCrc16 a la b seed) s = .next { s with result := some ⟨.ok, 0⟩ }))
      ∧ (∀ k, k < la → Accessible s.cfg a k → inWindow s.cfg (a + k) = false →
          exec (.checkCrc16 a la b seed) s = .fault (.memRange (a + k) .read))
      ∧ (∀ k, k < 2 → Accessible s.cfg a la → Accessible s.cfg b k →
          inWindow s.cfg (b + k) = false →
          exec (.checkCrc16 a la b seed) s = .fault (.memRange (b + k) .read)))
    ∧ (s.cfg.featureCrc16 = false → exec (.checkCrc16 a la b seed) s = .fault (.illegalOp 0x07))

/-- R247: a code's CRC byte matches exactly when the CRC-8 over all of it is 0, for either datapath. -/
def Obligations.RomCodeCheckIsZeroRemainder : Prop :=
  ∀ (p : Params) (code : List Byte) (c : Byte), p.crc8Poly = 0x8C →
    (crc8 p code = c ↔ crc8 p (code ++ [c]) = 0)

/-- R248: flipping one bit of the input changes both CRCs, and turns a passed CRC-16 check into a failed
one. -/
def Obligations.SingleBitFlipIsDetected : Prop :=
  ∀ (p : Params) (front back : List Byte) (b : Byte) (k : Nat) (seed : Half) (i0 i1 : Byte),
    p.crc8Poly = 0x8C → p.crc16Poly = 0xA001 → k < 8 →
    let x := front ++ b :: back
    let y := front ++ (b ^^^ (1#8 <<< k)) :: back
    crc8 p x ≠ crc8 p y ∧ crc16 p x seed ≠ crc16 p y seed
    ∧ (checkCrc16 p x i0 i1 seed = true → checkCrc16 p y i0 i1 seed = false)

/-! ## Dispatch, ownership and clear (45_control.md) -/

/-- R271: the ownership table, for requests whose operation is built in: `Overlap` in exactly the cells
that say so. -/
def Obligations.OwnershipTable : Prop :=
  ∀ (i : Instr) (s : State), HostReady s → legalOp s.cfg i.opcode = true →
    let forbidden :=
      (i.opcode = 0x02 ∧ s.ctx.owner = .transfer) ∨ (i.opcode = 0x03 ∧ s.ctx.owner = .reset)
      ∨ (i.opcode = 0x04 ∧ (s.ctx.owner = .reset ∨ s.ctx.owner = .transfer))
    (forbidden → exec i s = .fault (.overlap i.opcode s.ctx.owner))
    ∧ (¬ forbidden → ∀ op o, exec i s ≠ .fault (.overlap op o))

/-- R272: CLEAR, in every state in which the host has a step, and a second CLEAR changes nothing. -/
def Obligations.ClearReturnsTheContextToIdle : Prop :=
  ∀ (s : State), HostReady s →
    let t := { s with
      ctx := { owner := .idle, resetState := .init, transferState := .setup, resetRetryBudget := 0,
               lastOperationTimestamp := 0, commandSource := .host, commandCursor := 0,
               commandRemaining := 0, dataCursor := 0, dataRemaining := 0, readSkip := 0,
               tx := s.ctx.tx, rx := s.ctx.rx, baud := s.ctx.baud }
      srch := { phase := .idle, out := 0, max := 0, found := 0, lastCollision := 0,
                currentCollision := 0, bit := 0 }
      result := some ⟨.ok, 0⟩ }
    exec .clear s = .next t ∧ exec .clear t = .next t

/-- R270, R273: when the host's next action is a request that decodes, the step is the request's
execution in the state without that action, its fault recorded if it raises one (the list and the recorded
fault's form are the model's, notes/assumptions/1.md and 8.md). -/
def Obligations.StepRunsTheDecodedRequest : Prop :=
  ∀ (s : State) (w : Nat) (es : List Event) (i : Instr), HostReady s →
    s.env = .request w :: es → decode s.cfg w = .ok i →
    (∀ t, exec i { s with env := es } = .next t → step s = .next t)
    ∧ (∀ r, exec i { s with env := es } = .fault r →
        step s = .next { s with env := es, fault := some r })
    ∧ ∀ r, exec i { s with env := es } ≠ .refused r

/-- R302: a step that records a fault changes nothing else; the outside's list is the model's own. -/
def Obligations.FaultingStepOnlyRecordsTheFault : Prop :=
  ∀ (s t : State) (r : Fault), step s = .next t → t.fault = some r →
    t = { s with fault := some r, env := t.env }

/-- R303, R45: a recorded fault is terminal: neither a step nor any request goes on (that both answer the
fault again is the model's form, notes/assumptions/8.md). -/
def Obligations.RecordedFaultIsTerminal : Prop :=
  ∀ (s : State) (r : Fault) (i : Instr), s.fault = some r →
    step s = .fault r ∧ exec i s = .fault r

/-- R273, R340: during a search no request is taken: exec refuses it by name, and a step whose pending
actions are all the host's is the core's own search step, the host's actions still waiting (the refusal and
the waiting are the model's choices, notes/assumptions/9.md and 2.md). -/
def Obligations.HostIsBlockedDuringSearch : Prop :=
  ∀ (s : State) (i : Instr), s.fault = none → s.ctx.owner = .search →
    exec i s = .refused .hostBlocked
    ∧ ((∀ e ∈ s.env, (∃ w, e = .request w) ∨ ∃ a v, e = .hostWrite a v) →
        (∀ t, searchStep s = .ok t → step s = .next t)
        ∧ ∀ r, searchStep s = .error r → step s = .next { s with fault := some r })

/-- R72: the completion step writes exactly the armed entries and leaves the substrate idle; R74: the
clock step moves the clock alone (the pending list and the count of slots to send are the model's,
notes/assumptions/1.md and 12.md). -/
def Obligations.SubstrateAndClockSteps : Prop :=
  ∀ (s : State) (es : List Event), s.fault = none →
    (∀ b : Slots, s.env = .complete b :: es → s.sub.busy = true →
      ∃ x : Slots, step s = .next { s with
          ctx := { s.ctx with rx := x }
          sub := ⟨false, 0, 0, s.sub.rate⟩
          env := es }
        ∧ ∀ (i : Nat) (hi : i < 8), x[i] = if i < s.sub.rxPending then b[i] else s.ctx.rx[i])
    ∧ (∀ ms, s.env = .tick ms :: es → step s = .next { s with now := s.now + ms, env := es })

/-- R76: the exchange macros: what a start leaves, and that the completion check holds exactly when the
substrate is idle or `TIMEOUT_MS` have passed, modulo 2^32 (the substrate's count of slots to send is the
model's, notes/assumptions/12.md). -/
def Obligations.ExchangeMacros : Prop :=
  ∀ (s : State) (n : Nat),
    exchStart n s = { s with
      ctx := { s.ctx with lastOperationTimestamp := s.now }
      sub := { busy := true, rxPending := n, txPending := n, rate := s.sub.rate } }
    ∧ (exchDone s = true ↔ s.sub.busy = false
        ∨ s.cfg.timeoutMs.toNat
            ≤ (s.now.toNat + (2 ^ 32 - s.ctx.lastOperationTimestamp.toNat)) % 2 ^ 32)

/-! ## Whole-machine rules -/

/-- R271, R124, R125, R242, R244, R246: the CRC and codec operations read and write no register: every
register is as before, and the result and the memory written depend on memory and parameters alone. -/
def Obligations.StatelessRequestsTouchNoRegister : Prop :=
  ∀ (i : Instr) (s t : State), 0x05 ≤ i.opcode → exec i s = .next t →
    t.cfg = s.cfg ∧ t.ctx = s.ctx ∧ t.srch = s.srch ∧ t.sub = s.sub ∧ t.now = s.now
    ∧ t.fault = s.fault ∧ t.draws = s.draws ∧ t.env = s.env
    ∧ (i.opcode ≠ 0x08 → ∀ x, t.mem.read x = s.mem.read x)
    ∧ ∀ u, HostReady u → u.cfg = s.cfg → u.mem = s.mem →
        exec i u = .next { u with mem := t.mem, result := t.result }

/-- R32: only the substrate writes `ctx.rx`: no request and no search step does. -/
def Obligations.CoreNeverWritesTheReceiveBuffer : Prop :=
  (∀ (i : Instr) (s t : State), exec i s = .next t → t.ctx.rx = s.ctx.rx)
  ∧ ∀ (s t : State), searchStep s = .ok t → t.ctx.rx = s.ctx.rx

/-- R46: the parameters are no state: no step changes them. -/
def Obligations.StepKeepsTheParameters : Prop :=
  ∀ (s t : State), step s = .next t → t.cfg = s.cfg

/-- R330, R48: the state after power-on. -/
def Obligations.PowerOnState : Prop :=
  let s := State.reset
  s.ctx.owner = .idle ∧ s.ctx.resetState = .init ∧ s.ctx.transferState = .setup
  ∧ s.ctx.resetRetryBudget = 0 ∧ s.ctx.lastOperationTimestamp = 0 ∧ s.ctx.commandSource = .host
  ∧ s.ctx.commandCursor = 0 ∧ s.ctx.commandRemaining = 0 ∧ s.ctx.dataCursor = 0
  ∧ s.ctx.dataRemaining = 0 ∧ s.ctx.readSkip = 0 ∧ s.ctx.baud = .reset
  ∧ s.srch = { phase := .idle, out := 0, max := 0, found := 0, lastCollision := 0,
               currentCollision := 0, bit := 0 }
  ∧ s.fault = none ∧ s.sub.rate = .reset ∧ s.sub.busy = false ∧ s.sub.rxPending = 0

/-- R42 and the ranges of R48 to R50: the invariant holds after power-on. -/
def Obligations.PowerOnMeetsTheInvariant : Prop := Inv State.reset

/-- R42 and the ranges of R48 to R50: every step, of any agent, keeps the invariant. -/
def Obligations.StepKeepsTheInvariant : Prop :=
  ∀ (s t : State), Inv s → step s = .next t → Inv t
end

