-- ==== Sys2Proof/Laws/State.lean ====
section
/-! SUPPORT. One lemma per field per update of the state, each true by rfl, so that no proof unfolds a record update. -/

namespace Sys2Proof.Machine

section
variable (s : State) (x : Ctx)

@[simp] theorem State.setCtx_cfg : (s.setCtx x).cfg = s.cfg := rfl
@[simp] theorem State.setCtx_ctx : (s.setCtx x).ctx = x := rfl
@[simp] theorem State.setCtx_srch : (s.setCtx x).srch = s.srch := rfl
@[simp] theorem State.setCtx_sub : (s.setCtx x).sub = s.sub := rfl
@[simp] theorem State.setCtx_now : (s.setCtx x).now = s.now := rfl
@[simp] theorem State.setCtx_mem : (s.setCtx x).mem = s.mem := rfl
@[simp] theorem State.setCtx_result : (s.setCtx x).result = s.result := rfl
@[simp] theorem State.setCtx_fault : (s.setCtx x).fault = s.fault := rfl
@[simp] theorem State.setCtx_draws : (s.setCtx x).draws = s.draws := rfl
@[simp] theorem State.setCtx_env : (s.setCtx x).env = s.env := rfl

end

section
variable (s : State) (x : Srch)

@[simp] theorem State.setSrch_cfg : (s.setSrch x).cfg = s.cfg := rfl
@[simp] theorem State.setSrch_ctx : (s.setSrch x).ctx = s.ctx := rfl
@[simp] theorem State.setSrch_srch : (s.setSrch x).srch = x := rfl
@[simp] theorem State.setSrch_sub : (s.setSrch x).sub = s.sub := rfl
@[simp] theorem State.setSrch_now : (s.setSrch x).now = s.now := rfl
@[simp] theorem State.setSrch_mem : (s.setSrch x).mem = s.mem := rfl
@[simp] theorem State.setSrch_result : (s.setSrch x).result = s.result := rfl
@[simp] theorem State.setSrch_fault : (s.setSrch x).fault = s.fault := rfl
@[simp] theorem State.setSrch_draws : (s.setSrch x).draws = s.draws := rfl
@[simp] theorem State.setSrch_env : (s.setSrch x).env = s.env := rfl

end

section
variable (s : State) (x : Sub)

@[simp] theorem State.setSub_cfg : (s.setSub x).cfg = s.cfg := rfl
@[simp] theorem State.setSub_ctx : (s.setSub x).ctx = s.ctx := rfl
@[simp] theorem State.setSub_srch : (s.setSub x).srch = s.srch := rfl
@[simp] theorem State.setSub_sub : (s.setSub x).sub = x := rfl
@[simp] theorem State.setSub_now : (s.setSub x).now = s.now := rfl
@[simp] theorem State.setSub_mem : (s.setSub x).mem = s.mem := rfl
@[simp] theorem State.setSub_result : (s.setSub x).result = s.result := rfl
@[simp] theorem State.setSub_fault : (s.setSub x).fault = s.fault := rfl
@[simp] theorem State.setSub_draws : (s.setSub x).draws = s.draws := rfl
@[simp] theorem State.setSub_env : (s.setSub x).env = s.env := rfl

end

section
variable (s : State) (x : Millis)

@[simp] theorem State.setNow_cfg : (s.setNow x).cfg = s.cfg := rfl
@[simp] theorem State.setNow_ctx : (s.setNow x).ctx = s.ctx := rfl
@[simp] theorem State.setNow_srch : (s.setNow x).srch = s.srch := rfl
@[simp] theorem State.setNow_sub : (s.setNow x).sub = s.sub := rfl
@[simp] theorem State.setNow_now : (s.setNow x).now = x := rfl
@[simp] theorem State.setNow_mem : (s.setNow x).mem = s.mem := rfl
@[simp] theorem State.setNow_result : (s.setNow x).result = s.result := rfl
@[simp] theorem State.setNow_fault : (s.setNow x).fault = s.fault := rfl
@[simp] theorem State.setNow_draws : (s.setNow x).draws = s.draws := rfl
@[simp] theorem State.setNow_env : (s.setNow x).env = s.env := rfl

end

section
variable (s : State) (x : Memory)

@[simp] theorem State.setMem_cfg : (s.setMem x).cfg = s.cfg := rfl
@[simp] theorem State.setMem_ctx : (s.setMem x).ctx = s.ctx := rfl
@[simp] theorem State.setMem_srch : (s.setMem x).srch = s.srch := rfl
@[simp] theorem State.setMem_sub : (s.setMem x).sub = s.sub := rfl
@[simp] theorem State.setMem_now : (s.setMem x).now = s.now := rfl
@[simp] theorem State.setMem_mem : (s.setMem x).mem = x := rfl
@[simp] theorem State.setMem_result : (s.setMem x).result = s.result := rfl
@[simp] theorem State.setMem_fault : (s.setMem x).fault = s.fault := rfl
@[simp] theorem State.setMem_draws : (s.setMem x).draws = s.draws := rfl
@[simp] theorem State.setMem_env : (s.setMem x).env = s.env := rfl

end

section
variable (s : State) (x : Option Result)

@[simp] theorem State.setResult_cfg : (s.setResult x).cfg = s.cfg := rfl
@[simp] theorem State.setResult_ctx : (s.setResult x).ctx = s.ctx := rfl
@[simp] theorem State.setResult_srch : (s.setResult x).srch = s.srch := rfl
@[simp] theorem State.setResult_sub : (s.setResult x).sub = s.sub := rfl
@[simp] theorem State.setResult_now : (s.setResult x).now = s.now := rfl
@[simp] theorem State.setResult_mem : (s.setResult x).mem = s.mem := rfl
@[simp] theorem State.setResult_result : (s.setResult x).result = x := rfl
@[simp] theorem State.setResult_fault : (s.setResult x).fault = s.fault := rfl
@[simp] theorem State.setResult_draws : (s.setResult x).draws = s.draws := rfl
@[simp] theorem State.setResult_env : (s.setResult x).env = s.env := rfl

end

section
variable (s : State) (x : Option Fault)

@[simp] theorem State.setFault_cfg : (s.setFault x).cfg = s.cfg := rfl
@[simp] theorem State.setFault_ctx : (s.setFault x).ctx = s.ctx := rfl
@[simp] theorem State.setFault_srch : (s.setFault x).srch = s.srch := rfl
@[simp] theorem State.setFault_sub : (s.setFault x).sub = s.sub := rfl
@[simp] theorem State.setFault_now : (s.setFault x).now = s.now := rfl
@[simp] theorem State.setFault_mem : (s.setFault x).mem = s.mem := rfl
@[simp] theorem State.setFault_result : (s.setFault x).result = s.result := rfl
@[simp] theorem State.setFault_fault : (s.setFault x).fault = x := rfl
@[simp] theorem State.setFault_draws : (s.setFault x).draws = s.draws := rfl
@[simp] theorem State.setFault_env : (s.setFault x).env = s.env := rfl

end

section
variable (s : State) (x : Nat)

@[simp] theorem State.setDraws_cfg : (s.setDraws x).cfg = s.cfg := rfl
@[simp] theorem State.setDraws_ctx : (s.setDraws x).ctx = s.ctx := rfl
@[simp] theorem State.setDraws_srch : (s.setDraws x).srch = s.srch := rfl
@[simp] theorem State.setDraws_sub : (s.setDraws x).sub = s.sub := rfl
@[simp] theorem State.setDraws_now : (s.setDraws x).now = s.now := rfl
@[simp] theorem State.setDraws_mem : (s.setDraws x).mem = s.mem := rfl
@[simp] theorem State.setDraws_result : (s.setDraws x).result = s.result := rfl
@[simp] theorem State.setDraws_fault : (s.setDraws x).fault = s.fault := rfl
@[simp] theorem State.setDraws_draws : (s.setDraws x).draws = x := rfl
@[simp] theorem State.setDraws_env : (s.setDraws x).env = s.env := rfl

end

section
variable (s : State) (x : List Event)

@[simp] theorem State.setEnv_cfg : (s.setEnv x).cfg = s.cfg := rfl
@[simp] theorem State.setEnv_ctx : (s.setEnv x).ctx = s.ctx := rfl
@[simp] theorem State.setEnv_srch : (s.setEnv x).srch = s.srch := rfl
@[simp] theorem State.setEnv_sub : (s.setEnv x).sub = s.sub := rfl
@[simp] theorem State.setEnv_now : (s.setEnv x).now = s.now := rfl
@[simp] theorem State.setEnv_mem : (s.setEnv x).mem = s.mem := rfl
@[simp] theorem State.setEnv_result : (s.setEnv x).result = s.result := rfl
@[simp] theorem State.setEnv_fault : (s.setEnv x).fault = s.fault := rfl
@[simp] theorem State.setEnv_draws : (s.setEnv x).draws = s.draws := rfl
@[simp] theorem State.setEnv_env : (s.setEnv x).env = x := rfl

end

end Sys2Proof.Machine
end

