-- ==== Sys2Proof/Laws/Memory.lean ====
section
/-! SUPPORT. Host memory: read after write, writes elsewhere, and the canonical form, which every memory operation keeps. -/

namespace Sys2Proof.Machine

@[simp] theorem Memory.read_nil (a : Nat) : Memory.read [] a = Memory.unlisted := rfl

@[simp] theorem Memory.read_listed (k : Nat) (v : Byte) (m : Memory) (a : Nat) :
    Memory.read ((k, v) :: m) a = if a = k then v else Memory.read m a := rfl

/-- An address below every entry reads as unlisted. -/
theorem Memory.read_below (m : Memory) (a : Nat) (h : ∀ c ∈ m, a < c.1) :
    Memory.read m a = Memory.unlisted := by
  induction m with
  | nil => rfl
  | cons c m ih =>
    obtain ⟨k, v⟩ := c
    have hk : a < k := h (k, v) (by simp)
    rw [Memory.read_listed, if_neg (by omega), ih fun c hc => h c (by simp [hc])]

theorem Memory.read_cons_same (a : Nat) (v : Byte) (m : Memory) (h : ∀ c ∈ m, a < c.1) :
    Memory.read (Memory.cons a v m) a = v := by
  unfold Memory.cons
  split
  · next hv => rw [Memory.read_below m a h, hv]
  · simp

theorem Memory.read_cons_other (a b : Nat) (v : Byte) (m : Memory) (h : b ≠ a) :
    Memory.read (Memory.cons a v m) b = Memory.read m b := by
  unfold Memory.cons
  split <;> simp [h]

theorem Memory.wf_tail {c : Host.Cell} {m : Memory} (h : Memory.wf (c :: m)) :
    (∀ d ∈ m, c.1 < d.1) ∧ c.2 ≠ Memory.unlisted ∧ Memory.wf m := by
  obtain ⟨hp, hn⟩ := h
  rw [List.pairwise_cons] at hp
  exact ⟨hp.1, hn c (by simp), hp.2, fun d hd => hn d (by simp [hd])⟩

theorem Memory.wf_cons {a : Nat} {v : Byte} {m : Memory} (h : Memory.wf m) (ha : ∀ d ∈ m, a < d.1) :
    Memory.wf (Memory.cons a v m) := by
  unfold Memory.cons
  split
  · exact h
  · next hv =>
    refine ⟨List.pairwise_cons.2 ⟨ha, h.1⟩, ?_⟩
    intro d hd
    rcases List.mem_cons.1 hd with rfl | hd
    · exact hv
    · exact h.2 d hd

/-- The addresses a write leaves listed are old ones and the one written. -/
theorem Memory.mem_write {m : Memory} {a : Nat} {v : Byte} {c : Host.Cell}
    (h : c ∈ Memory.write m a v) : c = (a, v) ∨ c ∈ m := by
  induction m with
  | nil => simp only [Memory.write, Memory.cons] at h; split at h <;> simp_all
  | cons d m ih =>
    obtain ⟨k, w⟩ := d
    simp only [Memory.write, Memory.cons] at h
    split_ifs at h <;> simp_all <;> tauto

/-- A write keeps the canonical form. -/
theorem Memory.write_wf {m : Memory} (h : Memory.wf m) (a : Nat) (v : Byte) :
    Memory.wf (Memory.write m a v) := by
  induction m with
  | nil => exact Memory.wf_cons ⟨List.Pairwise.nil, by simp⟩ (by simp)
  | cons c m ih =>
    obtain ⟨k, w⟩ := c
    obtain ⟨hk, hw, hm⟩ := Memory.wf_tail h
    simp only [Memory.write]
    split_ifs with h1 h2
    · refine Memory.wf_cons h fun d hd => ?_
      rcases List.mem_cons.1 hd with rfl | hd
      · exact h1
      · exact Nat.lt_trans h1 (hk d hd)
    · exact Memory.wf_cons hm (by subst h2; exact hk)
    · refine ⟨List.pairwise_cons.2 ⟨fun d hd => ?_, (ih hm).1⟩, fun d hd => ?_⟩
      · rcases Memory.mem_write hd with rfl | hd
        · show k < a; omega
        · exact hk d hd
      · rcases List.mem_cons.1 hd with rfl | hd
        · exact hw
        · exact (ih hm).2 d hd

/-- A read of the address just written gives the byte written. -/
theorem Memory.read_write_same {m : Memory} (h : Memory.wf m) (a : Nat) (v : Byte) :
    Memory.read (Memory.write m a v) a = v := by
  induction m with
  | nil => exact Memory.read_cons_same a v [] (by simp)
  | cons c m ih =>
    obtain ⟨k, w⟩ := c
    obtain ⟨hk, -, hm⟩ := Memory.wf_tail h
    simp only [Memory.write]
    split_ifs with h1 h2
    · refine Memory.read_cons_same a v _ fun d hd => ?_
      rcases List.mem_cons.1 hd with rfl | hd
      · exact h1
      · exact Nat.lt_trans h1 (hk d hd)
    · exact Memory.read_cons_same a v m (by subst h2; exact hk)
    · rw [Memory.read_listed, if_neg h2, ih hm]

/-- A write leaves every other address alone. -/
theorem Memory.read_write_other (m : Memory) {a b : Nat} (v : Byte) (h : b ≠ a) :
    Memory.read (Memory.write m a v) b = Memory.read m b := by
  induction m with
  | nil => simp [Memory.write, Memory.read_cons_other, h]
  | cons c m ih =>
    obtain ⟨k, w⟩ := c
    simp only [Memory.write]
    split_ifs with h1 h2
    · rw [Memory.read_cons_other _ _ _ _ h]
    · subst h2; rw [Memory.read_cons_other _ _ _ _ h, Memory.read_listed, if_neg h]
    · rw [Memory.read_listed, Memory.read_listed, ih]

/-- A read after a write, both cases. -/
theorem Memory.read_write {m : Memory} (h : Memory.wf m) (a b : Nat) (v : Byte) :
    Memory.read (Memory.write m a v) b = if b = a then v else Memory.read m b := by
  split
  · next hb => rw [hb, Memory.read_write_same h]
  · next hb => rw [Memory.read_write_other m v hb]

theorem Memory.wf_reset : Memory.wf State.reset.mem := ⟨List.Pairwise.nil, by simp [State.reset]⟩

/-! The two primitives (00_scope.md R13). -/

/-- What `MemRead` answers: the byte at an accessible address, and no state is involved (R64). -/
theorem memRead_eq_ok {a : Nat} {s : State} {v : Byte} :
    memRead a s = .ok v ↔ inWindow s.cfg a = true ∧ v = s.mem.read a := by
  unfold memRead
  split_ifs with h <;> simp [h, eq_comm]

theorem memRead_eq_error {a : Nat} {s : State} {f : Fault} :
    memRead a s = .error f ↔ inWindow s.cfg a = false ∧ f = .memRange a .read := by
  unfold memRead
  split_ifs with h <;> simp [h, eq_comm]

/-- What `MemWrite` answers: memory with that byte replaced, all else as it was. -/
theorem memWrite_eq_ok {a : Nat} {v : Byte} {s t : State} :
    memWrite a v s = .ok t ↔ inWindow s.cfg a = true ∧ t = s.setMem (s.mem.write a v) := by
  unfold memWrite
  split_ifs with h <;> simp [h, eq_comm]

theorem memWrite_eq_error {a : Nat} {v : Byte} {s : State} {f : Fault} :
    memWrite a v s = .error f ↔ inWindow s.cfg a = false ∧ f = .memRange a .write := by
  unfold memWrite
  split_ifs with h <;> simp [h, eq_comm]

end Sys2Proof.Machine
end

