-- ==== Sys2Proof/Laws/Ops.lean ====
section
/-! SUPPORT. One spec lemma for each shared operation: what a sequence of steps, a host step, an exchange and a recorded fault can do. -/

namespace Sys2Proof.Machine

/-! ## Sequencing -/

theorem bind_eq_ok {α β : Type} {x : Except Fault α} {f : α → Except Fault β} {b : β} :
    (x >>= f) = .ok b ↔ ∃ a, x = .ok a ∧ f a = .ok b := by
  cases x <;> simp [bind, Except.bind]

theorem bind_eq_error {α β : Type} {x : Except Fault α} {f : α → Except Fault β} {r : Fault} :
    (x >>= f) = .error r ↔ x = .error r ∨ ∃ a, x = .ok a ∧ f a = .error r := by
  cases x <;> simp [bind, Except.bind]

@[simp] theorem ok_bind {α β : Type} (a : α) (f : α → Except Fault β) :
    ((Except.ok a : Except Fault α) >>= f) = f a := rfl

@[simp] theorem error_bind {α β : Type} (r : Fault) (f : α → Except Fault β) :
    ((Except.error r : Except Fault α) >>= f) = .error r := rfl

@[simp] theorem pure_eq_ok {α : Type} (a : α) : (pure a : Except Fault α) = .ok a := rfl

@[simp] theorem outcomeOf_eq_next {x : Except Fault State} {t : State} :
    outcomeOf x = .next t ↔ x = .ok t := by
  cases x <;> simp [outcomeOf]

@[simp] theorem outcomeOf_eq_fault {x : Except Fault State} {r : Fault} :
    outcomeOf x = .fault r ↔ x = .error r := by
  cases x <;> simp [outcomeOf]

@[simp] theorem outcomeOf_ok (t : State) : outcomeOf (.ok t) = .next t := rfl

@[simp] theorem outcomeOf_error (r : Fault) : outcomeOf (.error r) = .fault r := rfl

/-! ## Taking a host request -/

/-- A host step that passes its checks is the operation's own step. -/
theorem hostStep_allowed {op : Byte} {s : State} {body : Except Fault State} (hf : s.fault = none)
    (ho : s.ctx.owner ≠ .search) (hl : legalOp s.cfg op = true)
    (ha : ownerAllows op s.ctx.owner = true) : hostStep op s body = outcomeOf body := by
  simp [hostStep, hf, ho, hl, ha]

/-- A host step answers a next state exactly when every check passes and the operation's step does. -/
theorem hostStep_eq_next {op : Byte} {s t : State} {body : Except Fault State} :
    hostStep op s body = .next t ↔
      s.fault = none ∧ s.ctx.owner ≠ .search ∧ legalOp s.cfg op = true
        ∧ ownerAllows op s.ctx.owner = true ∧ body = .ok t := by
  unfold hostStep
  cases hf : s.fault with
  | some r => simp
  | none => split_ifs <;> simp_all

/-- The stateless and clearing operations are allowed whenever the host has a step (R271). -/
theorem ownerAllows_other {op : Byte} {o : Owner} (h : op ≠ 0x02 ∧ op ≠ 0x03 ∧ op ≠ 0x04) :
    ownerAllows op o = decide (o ≠ .search) := by
  rw [ownerAllows, if_neg h.1, if_neg h.2.1, if_neg h.2.2]

@[simp] theorem ownerAllows_reset (o : Owner) :
    ownerAllows 2#8 o = decide (o = .idle ∨ o = .reset) := rfl

@[simp] theorem ownerAllows_send (o : Owner) :
    ownerAllows 3#8 o = decide (o = .idle ∨ o = .transfer) := rfl

@[simp] theorem ownerAllows_search (o : Owner) : ownerAllows 4#8 o = decide (o = .idle) := rfl

/-! ## Model faults -/

/-- A transition's next state is the operation's own, or the fault recorded and nothing else (R302). -/
theorem commit_eq_next {s t : State} {o : Host.Outcome State Fault Refusal} :
    commit s o = .next t ↔ o = .next t ∨ ∃ r, o = .fault r ∧ t = recordFault r s := by
  cases o <;> simp [commit, eq_comm]

/-! ## The substrate port -/

@[simp] theorem exchStart_cfg (n : Nat) (s : State) : (exchStart n s).cfg = s.cfg := rfl
@[simp] theorem exchStart_srch (n : Nat) (s : State) : (exchStart n s).srch = s.srch := rfl
@[simp] theorem exchStart_now (n : Nat) (s : State) : (exchStart n s).now = s.now := rfl
@[simp] theorem exchStart_mem (n : Nat) (s : State) : (exchStart n s).mem = s.mem := rfl
@[simp] theorem exchStart_result (n : Nat) (s : State) : (exchStart n s).result = s.result := rfl
@[simp] theorem exchStart_fault (n : Nat) (s : State) : (exchStart n s).fault = s.fault := rfl
@[simp] theorem exchStart_draws (n : Nat) (s : State) : (exchStart n s).draws = s.draws := rfl
@[simp] theorem exchStart_env (n : Nat) (s : State) : (exchStart n s).env = s.env := rfl

/-- An exchange start changes one context register: the start time (R76). -/
@[simp] theorem exchStart_ctx (n : Nat) (s : State) :
    (exchStart n s).ctx = { s.ctx with lastOperationTimestamp := s.now } := rfl

/-- An exchange start arms and transmits `n` bytes at the rate set before (R70). -/
@[simp] theorem exchStart_sub (n : Nat) (s : State) :
    (exchStart n s).sub = ⟨true, n, n, s.sub.rate⟩ := rfl

/-- When an exchange has ended: the substrate is idle, or the timeout has passed (R76). -/
theorem exchDone_iff (s : State) : exchDone s = true ↔
    s.sub.busy = false ∨ s.cfg.timeoutMs ≤ s.now - s.ctx.lastOperationTimestamp := by
  rw [exchDone, Bool.or_eq_true, decide_eq_true_eq, isIdle, Bool.not_eq_true']
  rfl

/-- A read of `ctx.rx` changes the draw count at most. -/
theorem rxDrawn_eq (s : State) : ∃ n, rxDrawn s = s.setDraws n := by
  unfold rxDrawn
  split
  · exact ⟨_, rfl⟩
  · exact ⟨s.draws, rfl⟩

@[simp] theorem rxDrawn_cfg (s : State) : (rxDrawn s).cfg = s.cfg := by
  obtain ⟨n, h⟩ := rxDrawn_eq s; rw [h]; rfl
@[simp] theorem rxDrawn_ctx (s : State) : (rxDrawn s).ctx = s.ctx := by
  obtain ⟨n, h⟩ := rxDrawn_eq s; rw [h]; rfl
@[simp] theorem rxDrawn_srch (s : State) : (rxDrawn s).srch = s.srch := by
  obtain ⟨n, h⟩ := rxDrawn_eq s; rw [h]; rfl
@[simp] theorem rxDrawn_sub (s : State) : (rxDrawn s).sub = s.sub := by
  obtain ⟨n, h⟩ := rxDrawn_eq s; rw [h]; rfl
@[simp] theorem rxDrawn_now (s : State) : (rxDrawn s).now = s.now := by
  obtain ⟨n, h⟩ := rxDrawn_eq s; rw [h]; rfl
@[simp] theorem rxDrawn_mem (s : State) : (rxDrawn s).mem = s.mem := by
  obtain ⟨n, h⟩ := rxDrawn_eq s; rw [h]; rfl
@[simp] theorem rxDrawn_result (s : State) : (rxDrawn s).result = s.result := by
  obtain ⟨n, h⟩ := rxDrawn_eq s; rw [h]; rfl
@[simp] theorem rxDrawn_fault (s : State) : (rxDrawn s).fault = s.fault := by
  obtain ⟨n, h⟩ := rxDrawn_eq s; rw [h]; rfl
@[simp] theorem rxDrawn_env (s : State) : (rxDrawn s).env = s.env := by
  obtain ⟨n, h⟩ := rxDrawn_eq s; rw [h]; rfl

/-- A completed exchange is read as received (R73). -/
theorem rxSeen_idle {s : State} (h : s.sub.busy = false) : rxSeen s = s.ctx.rx := by
  simp [rxSeen, h]

theorem rxDrawn_idle {s : State} (h : s.sub.busy = false) : rxDrawn s = s := by
  simp [rxDrawn, h]

/-- The entries a completion writes, and those it keeps (R72). -/
theorem mergeRx_get (old b : Slots) (n i : Nat) (h : i < 8) :
    (mergeRx old b n)[i] = if i < n then b[i] else old[i] := by
  rcases i with _ | _ | _ | _ | _ | _ | _ | _ | i <;> first | rfl | omega

/-! ## Agents -/

/-- An enabled action at the head of the outside's list is the next transition. -/
theorem step_head {s : State} {e : Event} {es : List Event} (hf : s.fault = none)
    (he : s.env = e :: es) (hen : eventEnabled s e = true) :
    step s = runEvent e (s.setEnv es) := by
  simp [step, systemStep, hf, he, takeEnabled, hen]

/-- `takeEnabled` takes an enabled action. -/
theorem takeEnabled_enabled {s : State} {es rest : List Event} {e : Event}
    (h : takeEnabled s es = some (e, rest)) : eventEnabled s e = true := by
  induction es generalizing rest with
  | nil => simp [takeEnabled] at h
  | cons d ds ih =>
    simp only [takeEnabled] at h
    split_ifs at h with hd
    · simp_all
    · cases ht : takeEnabled s ds with
      | none => simp [ht] at h
      | some r =>
        rw [ht] at h
        simp only [Option.map_some, Option.some.injEq, Prod.mk.injEq] at h
        exact ih (rest := r.2) (by rw [ht, ← h.1])

/-- Everything a step can do: the transition of an enabled action, the core's own step, or nothing; and
it is a step only where no fault is recorded. -/
theorem step_cases {s t : State} (h : step s = .next t) :
    s.fault = none ∧
      ((∃ e es, eventEnabled s e = true ∧ runEvent e (s.setEnv es) = .next t)
        ∨ (s.ctx.owner = .search ∧ commit s (outcomeOf (searchStep s)) = .next t)
        ∨ (s.ctx.owner ≠ .search ∧ t = s)) := by
  unfold step systemStep at h
  cases hf : s.fault with
  | some r => simp [hf] at h
  | none =>
    refine ⟨rfl, ?_⟩
    simp only [hf] at h
    cases ht : takeEnabled s s.env with
    | some r =>
      rw [ht] at h
      exact .inl ⟨r.1, r.2, takeEnabled_enabled (rest := r.2) ht, h⟩
    | none =>
      rw [ht] at h
      simp only [runAlone] at h
      split_ifs at h with ho
      · exact .inr (.inl ⟨ho, h⟩)
      · exact .inr (.inr ⟨ho, by simpa using h.symm⟩)

end Sys2Proof.Machine
end

