-- ==== Sys2Proof/Laws/Operands.lean ====
section
/-! SUPPORT. What the buffer walks, the slot areas and the single-bit update do. -/

namespace Sys2Proof.Machine

theorem accessible_head {p : Params} {a n : Nat} :
    Accessible p a (n + 1) ↔ inWindow p a = true ∧ Accessible p (a + 1) n := by
  constructor
  · intro h
    exact ⟨h 0 (by omega), fun k hk => by have := h (k + 1) (by omega); rwa [← Nat.add_assoc, Nat.add_right_comm] at this⟩
  · rintro ⟨h0, h⟩ k hk
    rcases k with _ | k
    · exact h0
    · have := h k (by omega)
      rwa [Nat.add_right_comm, Nat.add_assoc] at this

theorem bytesAt_zero (m : Memory) (a : Nat) : bytesAt m a 0 = [] := rfl

theorem bytesAt_succ (m : Memory) (a n : Nat) : bytesAt m a (n + 1) = m.read a :: bytesAt m (a + 1) n := by
  simp only [bytesAt, List.range_succ_eq_map, List.map_cons, List.map_map, Nat.add_zero]
  congr 1
  apply List.map_congr_left
  intro k _
  simp only [Function.comp, Nat.succ_eq_add_one]
  congr 1
  omega

/-- A buffer that may be accessed reads as its bytes in ascending order (20_memory.md R62). -/
theorem readBytes_accessible {s : State} {n : Nat} : ∀ {a : Nat}, Accessible s.cfg a n →
    readBytes a n s = .ok (bytesAt s.mem a n) := by
  induction n with
  | zero => intro a _; rfl
  | succ n ih =>
    intro a h
    obtain ⟨h0, hr⟩ := accessible_head.1 h
    simp [readBytes, memRead_eq_ok.2 ⟨h0, rfl⟩, ih hr, bytesAt_succ]

/-- A buffer walk faults at its first address outside the window (R61). -/
theorem readBytes_faults {s : State} {n : Nat} : ∀ {a k : Nat}, k < n → Accessible s.cfg a k →
    inWindow s.cfg (a + k) = false → readBytes a n s = .error (.memRange (a + k) .read) := by
  induction n with
  | zero => intro a k hk; omega
  | succ n ih =>
    intro a k hk hacc hbad
    rcases k with _ | k
    · simp [readBytes, memRead_eq_error.2 ⟨by simpa using hbad, rfl⟩]
    · obtain ⟨h0, hr⟩ := accessible_head.1 hacc
      have hbad' : inWindow s.cfg (a + 1 + k) = false := by
        rwa [Nat.add_right_comm, Nat.add_assoc]
      simp [readBytes, memRead_eq_ok.2 ⟨h0, rfl⟩, ih (by omega) hr hbad', Nat.add_assoc, Nat.add_comm 1 k]

/-- A buffer walk that succeeds was accessible throughout. -/
theorem readBytes_eq_ok {s : State} {n : Nat} : ∀ {a : Nat} {bs : List Byte},
    readBytes a n s = .ok bs ↔ Accessible s.cfg a n ∧ bs = bytesAt s.mem a n := by
  intro a bs
  constructor
  · intro h
    have hacc : Accessible s.cfg a n := by
      induction n generalizing a bs with
      | zero => intro k hk; omega
      | succ n ih =>
        simp only [readBytes, bind_eq_ok, memRead_eq_ok] at h
        obtain ⟨b, ⟨h0, -⟩, r, hr, -⟩ := h
        exact accessible_head.2 ⟨h0, ih hr⟩
    rw [readBytes_accessible hacc] at h
    exact ⟨hacc, by cases h; rfl⟩
  · rintro ⟨hacc, rfl⟩
    exact readBytes_accessible hacc

/-- Memory with consecutive bytes replaced. -/
def writeAll : Memory → Nat → List Byte → Memory
  | m, _, [] => m
  | m, a, b :: bs => writeAll (m.write a b) (a + 1) bs

theorem writeAll_wf {m : Memory} (h : Memory.wf m) (a : Nat) (bs : List Byte) :
    Memory.wf (writeAll m a bs) := by
  induction bs generalizing m a with
  | nil => exact h
  | cons b bs ih => exact ih (Memory.write_wf h a b) (a + 1)

theorem writeAll_read_below {m : Memory} {a x : Nat} (bs : List Byte) (h : x < a) :
    (writeAll m a bs).read x = m.read x := by
  induction bs generalizing m a with
  | nil => rfl
  | cons b bs ih => rw [writeAll, ih (by omega), Memory.read_write_other _ _ (by omega)]

theorem writeAll_read_above {m : Memory} {a x : Nat} (bs : List Byte) (h : a + bs.length ≤ x) :
    (writeAll m a bs).read x = m.read x := by
  induction bs generalizing m a with
  | nil => rfl
  | cons b bs ih =>
    simp only [List.length_cons] at h
    rw [writeAll, ih (by omega), Memory.read_write_other _ _ (by omega)]

theorem writeAll_read_at {m : Memory} (hm : Memory.wf m) {a : Nat} {bs : List Byte} {i : Nat}
    (h : i < bs.length) : (writeAll m a bs).read (a + i) = bs[i] := by
  induction bs generalizing m a i with
  | nil => simp at h
  | cons b bs ih =>
    rcases i with _ | i
    · show (writeAll (m.write a b) (a + 1) bs).read a = b
      rw [writeAll_read_below _ (by omega), Memory.read_write_same hm]
    · have := ih (m := m.write a b) (Memory.write_wf hm a b) (a := a + 1) (i := i) (by simpa using h)
      rw [Nat.add_right_comm, Nat.add_assoc] at this
      simpa [writeAll] using this

/-- A buffer that may be accessed is written byte by byte, and nothing else changes. -/
theorem writeBytes_accessible {bs : List Byte} : ∀ {a : Nat} {s : State},
    Accessible s.cfg a bs.length → writeBytes a bs s = .ok (s.setMem (writeAll s.mem a bs)) := by
  induction bs with
  | nil => intro a s _; rfl
  | cons b bs ih =>
    intro a s h
    obtain ⟨h0, hr⟩ := accessible_head.1 h
    have := ih (a := a + 1) (s := s.setMem (s.mem.write a b)) (by simpa using hr)
    simp only [writeBytes, memWrite_eq_ok.2 ⟨h0, rfl⟩, ok_bind, this]
    rfl

/-- A buffer walk that writes faults at its first address outside the window. -/
theorem writeBytes_faults {bs : List Byte} : ∀ {a k : Nat} {s : State}, k < bs.length →
    Accessible s.cfg a k → inWindow s.cfg (a + k) = false →
    writeBytes a bs s = .error (.memRange (a + k) .write) := by
  induction bs with
  | nil => intro a k s hk; simp at hk
  | cons b bs ih =>
    intro a k s hk hacc hbad
    rcases k with _ | k
    · simp [writeBytes, memWrite_eq_error.2 ⟨by simpa using hbad, rfl⟩]
    · obtain ⟨h0, hr⟩ := accessible_head.1 hacc
      have hk' : k < bs.length := by simpa using hk
      have := ih (a := a + 1) (k := k) (s := s.setMem (s.mem.write a b)) hk' (by simpa using hr)
        (by rw [State.setMem_cfg, Nat.add_right_comm, Nat.add_assoc]; exact hbad)
      simp only [writeBytes, memWrite_eq_ok.2 ⟨h0, rfl⟩, ok_bind, this]
      rw [Nat.add_right_comm, Nat.add_assoc]

/-- Writing a buffer changes memory at most. -/
theorem writeBytes_eq_ok {bs : List Byte} : ∀ {a : Nat} {s t : State},
    writeBytes a bs s = .ok t ↔ Accessible s.cfg a bs.length ∧ t = s.setMem (writeAll s.mem a bs) := by
  intro a s t
  constructor
  · intro h
    have hacc : Accessible s.cfg a bs.length := by
      induction bs generalizing a s with
      | nil => intro k hk; simp at hk
      | cons b bs ih =>
        simp only [writeBytes, bind_eq_ok, memWrite_eq_ok] at h
        obtain ⟨u, ⟨h0, rfl⟩, hr⟩ := h
        exact accessible_head.2 ⟨h0, by simpa using ih hr⟩
    rw [writeBytes_accessible hacc] at h
    exact ⟨hacc, by cases h; rfl⟩
  · rintro ⟨hacc, rfl⟩
    exact writeBytes_accessible hacc

/-- The eight slot bytes of an accessible area. -/
theorem readSlots_accessible {s : State} {a : Nat} (h : Accessible s.cfg a 8) :
    readSlots a s = .ok #v[s.mem.read a, s.mem.read (a + 1), s.mem.read (a + 2), s.mem.read (a + 3),
      s.mem.read (a + 4), s.mem.read (a + 5), s.mem.read (a + 6), s.mem.read (a + 7)] := by
  have hr (k : Nat) (hk : k < 8) : memRead (a + k) s = .ok (s.mem.read (a + k)) :=
    memRead_eq_ok.2 ⟨h k hk, rfl⟩
  have h0 := hr 0 (by omega)
  rw [Nat.add_zero] at h0
  simp [readSlots, h0, hr]

/-- A bit update changes one bit (00_scope.md R11). -/
theorem setBit_get (m : Byte) (i j : Nat) (b : Bool) (hi : i < 8) (hj : j < 8) :
    (setBit m i b).getLsbD j = if j = i then b else m.getLsbD j := by
  have h1 : (1#8 <<< i).getLsbD j = decide (j = i) := by
    interval_cases i <;> interval_cases j <;> rfl
  unfold setBit
  cases b
  · rw [if_neg (by simp), BitVec.getLsbD_and, BitVec.getLsbD_not, h1]
    by_cases h : j = i <;> simp [h, hj]
  · rw [if_pos rfl, BitVec.getLsbD_or, h1]
    by_cases h : j = i <;> simp [h]

end Sys2Proof.Machine
end

