-- ==== Sys2Proof/Laws/Fsm.lean ====
section
/-! SUPPORT. What a step of the reset machine, of the transfer machine and of the search sequencer leaves unchanged, whichever state it is in. -/

namespace Sys2Proof.Machine

/-! ## The reset machine -/

@[simp] theorem resetStep_cfg (s : State) : (resetStep s).2.cfg = s.cfg := by
  unfold resetStep resetInit resetSendPresence resetAwait resetCheck resetFinalize
  split <;> dsimp only <;> (try split_ifs) <;> simp [reconfigure]

@[simp] theorem resetStep_srch (s : State) : (resetStep s).2.srch = s.srch := by
  unfold resetStep resetInit resetSendPresence resetAwait resetCheck resetFinalize
  split <;> dsimp only <;> (try split_ifs) <;> simp [reconfigure]

@[simp] theorem resetStep_now (s : State) : (resetStep s).2.now = s.now := by
  unfold resetStep resetInit resetSendPresence resetAwait resetCheck resetFinalize
  split <;> dsimp only <;> (try split_ifs) <;> simp [reconfigure]

@[simp] theorem resetStep_mem (s : State) : (resetStep s).2.mem = s.mem := by
  unfold resetStep resetInit resetSendPresence resetAwait resetCheck resetFinalize
  split <;> dsimp only <;> (try split_ifs) <;> simp [reconfigure]

@[simp] theorem resetStep_result (s : State) : (resetStep s).2.result = s.result := by
  unfold resetStep resetInit resetSendPresence resetAwait resetCheck resetFinalize
  split <;> dsimp only <;> (try split_ifs) <;> simp [reconfigure]

@[simp] theorem resetStep_fault (s : State) : (resetStep s).2.fault = s.fault := by
  unfold resetStep resetInit resetSendPresence resetAwait resetCheck resetFinalize
  split <;> dsimp only <;> (try split_ifs) <;> simp [reconfigure]

@[simp] theorem resetStep_env (s : State) : (resetStep s).2.env = s.env := by
  unfold resetStep resetInit resetSendPresence resetAwait resetCheck resetFinalize
  split <;> dsimp only <;> (try split_ifs) <;> simp [reconfigure]

@[simp] theorem resetStep_owner (s : State) : (resetStep s).2.ctx.owner = s.ctx.owner := by
  unfold resetStep resetInit resetSendPresence resetAwait resetCheck resetFinalize
  split <;> dsimp only <;> (try split_ifs) <;> simp [reconfigure]

@[simp] theorem resetStep_transferState (s : State) : (resetStep s).2.ctx.transferState = s.ctx.transferState := by
  unfold resetStep resetInit resetSendPresence resetAwait resetCheck resetFinalize
  split <;> dsimp only <;> (try split_ifs) <;> simp [reconfigure]

@[simp] theorem resetStep_commandSource (s : State) : (resetStep s).2.ctx.commandSource = s.ctx.commandSource := by
  unfold resetStep resetInit resetSendPresence resetAwait resetCheck resetFinalize
  split <;> dsimp only <;> (try split_ifs) <;> simp [reconfigure]

@[simp] theorem resetStep_commandCursor (s : State) : (resetStep s).2.ctx.commandCursor = s.ctx.commandCursor := by
  unfold resetStep resetInit resetSendPresence resetAwait resetCheck resetFinalize
  split <;> dsimp only <;> (try split_ifs) <;> simp [reconfigure]

@[simp] theorem resetStep_commandRemaining (s : State) : (resetStep s).2.ctx.commandRemaining = s.ctx.commandRemaining := by
  unfold resetStep resetInit resetSendPresence resetAwait resetCheck resetFinalize
  split <;> dsimp only <;> (try split_ifs) <;> simp [reconfigure]

@[simp] theorem resetStep_dataCursor (s : State) : (resetStep s).2.ctx.dataCursor = s.ctx.dataCursor := by
  unfold resetStep resetInit resetSendPresence resetAwait resetCheck resetFinalize
  split <;> dsimp only <;> (try split_ifs) <;> simp [reconfigure]

@[simp] theorem resetStep_dataRemaining (s : State) : (resetStep s).2.ctx.dataRemaining = s.ctx.dataRemaining := by
  unfold resetStep resetInit resetSendPresence resetAwait resetCheck resetFinalize
  split <;> dsimp only <;> (try split_ifs) <;> simp [reconfigure]

@[simp] theorem resetStep_readSkip (s : State) : (resetStep s).2.ctx.readSkip = s.ctx.readSkip := by
  unfold resetStep resetInit resetSendPresence resetAwait resetCheck resetFinalize
  split <;> dsimp only <;> (try split_ifs) <;> simp [reconfigure]

@[simp] theorem resetStep_rx (s : State) : (resetStep s).2.ctx.rx = s.ctx.rx := by
  unfold resetStep resetInit resetSendPresence resetAwait resetCheck resetFinalize
  split <;> dsimp only <;> (try split_ifs) <;> simp [reconfigure]

/-- A pulse writes entry 0 of the transmit buffer and no other; the other states write none (R142). -/
theorem resetStep_tx (s : State) :
    (resetStep s).2.ctx.tx =
      if s.ctx.resetState = .sendPresence then s.ctx.tx.set 0 s.cfg.resetByte else s.ctx.tx := by
  unfold resetStep resetInit resetSendPresence resetAwait resetCheck resetFinalize
  split <;> dsimp only <;> (try split_ifs) <;> simp_all [reconfigure]

/-- Only `FINALIZE` answers a status other than `WAIT` (41_reset_fsm.md section 1). -/
theorem resetStep_status (s : State) :
    (resetStep s).1 = if s.ctx.resetState = .finalize then
      (if s.ctx.resetRetryBudget = 0 then .noDevice else .ok) else .wait := by
  unfold resetStep resetInit resetSendPresence resetAwait resetCheck resetFinalize
  split <;> dsimp only <;> (try split_ifs) <;> simp_all [reconfigure]

/-- A reset that ends leaves its machine at `INIT` and the bus at the transfer rate (R145). -/
theorem resetStep_ends {s : State} (h : (resetStep s).1 ≠ .wait) :
    (resetStep s).2.ctx.resetState = .init ∧ (resetStep s).2.ctx.baud = .transfer
      ∧ (resetStep s).2.sub.rate = .transfer := by
  have hf : s.ctx.resetState = .finalize := by
    by_contra hn
    exact h (by rw [resetStep_status, if_neg hn])
  simp [resetStep, hf, resetFinalize, reconfigure]

/-- Everything a reset step can do (R140 to R145): the state it is in, and the pair it answers. -/
theorem resetStep_cases (s : State) :
    (s.ctx.resetState = .init ∧ resetStep s =
      (.wait, (s.setSub { s.sub with rate := .reset }).setCtx { s.ctx with
        baud := .reset, resetRetryBudget := s.cfg.resetAttempts, resetState := .sendPresence }))
    ∨ (s.ctx.resetState = .sendPresence ∧ resetStep s =
      (.wait, (s.setSub ⟨true, 1, 1, s.sub.rate⟩).setCtx { s.ctx with
        tx := s.ctx.tx.set 0 s.cfg.resetByte, lastOperationTimestamp := s.now, resetState := .await }))
    ∨ (s.ctx.resetState = .await ∧ exchDone s = false ∧ resetStep s = (.wait, s))
    ∨ (s.ctx.resetState = .await ∧ exchDone s = true ∧ resetStep s =
      (.wait, s.setCtx { s.ctx with resetState := .check }))
    ∨ (s.ctx.resetState = .check ∧ (rxSeen s)[0] ≠ s.cfg.resetByte ∧ resetStep s =
      (.wait, (rxDrawn s).setCtx { s.ctx with resetState := .finalize }))
    ∨ (s.ctx.resetState = .check ∧ (rxSeen s)[0] = s.cfg.resetByte ∧ 1 < s.ctx.resetRetryBudget
      ∧ resetStep s = (.wait, (rxDrawn s).setCtx { s.ctx with
        resetRetryBudget := s.ctx.resetRetryBudget - 1, resetState := .sendPresence }))
    ∨ (s.ctx.resetState = .check ∧ (rxSeen s)[0] = s.cfg.resetByte ∧ ¬ 1 < s.ctx.resetRetryBudget
      ∧ resetStep s = (.wait, (rxDrawn s).setCtx { s.ctx with
        resetRetryBudget := 0, resetState := .finalize }))
    ∨ (s.ctx.resetState = .finalize ∧ resetStep s =
      (if s.ctx.resetRetryBudget = 0 then .noDevice else .ok,
        (s.setSub { s.sub with rate := .transfer }).setCtx { s.ctx with
          baud := .transfer, resetState := .init })) := by
  unfold resetStep
  cases h : s.ctx.resetState
  · exact .inl ⟨rfl, rfl⟩
  · exact .inr (.inl ⟨rfl, rfl⟩)
  · cases hd : exchDone s
    · exact .inr (.inr (.inl ⟨rfl, rfl, by simp [resetAwait, hd]⟩))
    · exact .inr (.inr (.inr (.inl ⟨rfl, rfl, by simp [resetAwait, hd]⟩)))
  · refine .inr (.inr (.inr (.inr ?_)))
    by_cases h1 : (rxSeen s)[0] = s.cfg.resetByte
    · by_cases h2 : 1 < s.ctx.resetRetryBudget
      · exact .inr (.inl ⟨rfl, h1, h2, by
          simp only [resetCheck, h1, ne_eq, not_true_eq_false, if_false, rxDrawn_ctx, rxDrawn_cfg,
            if_pos h2]⟩)
      · exact .inr (.inr (.inl ⟨rfl, h1, h2, by
          simp only [resetCheck, h1, ne_eq, not_true_eq_false, if_false, rxDrawn_ctx, rxDrawn_cfg,
            if_neg h2]⟩))
    · exact .inl ⟨rfl, h1, by simp [resetCheck, h1]⟩
  · exact .inr (.inr (.inr (.inr (.inr (.inr (.inr ⟨rfl, rfl⟩))))))

/-! ## The transfer machine -/

/-- Everything a byte capture can do (R174). -/
theorem captureByte_cases {d : Byte} {s t : State} (h : captureByte d s = .ok t) :
    (s.ctx.readSkip = 0 ∧ 0 < s.ctx.dataRemaining ∧ inWindow s.cfg s.ctx.dataCursor = true
      ∧ t = (s.setMem (s.mem.write s.ctx.dataCursor d)).setCtx { s.ctx with
          dataCursor := s.ctx.dataCursor + 1, dataRemaining := s.ctx.dataRemaining - 1 })
    ∨ (¬ (s.ctx.readSkip = 0 ∧ 0 < s.ctx.dataRemaining) ∧ s.ctx.readSkip ≠ s.cfg.skipNever
      ∧ t = s.setCtx { s.ctx with readSkip := s.ctx.readSkip - 1 })
    ∨ (¬ (s.ctx.readSkip = 0 ∧ 0 < s.ctx.dataRemaining) ∧ s.ctx.readSkip = s.cfg.skipNever ∧ t = s) := by
  unfold captureByte at h
  split_ifs at h with h1 h2
  · simp only [bind_eq_ok, memWrite_eq_ok, pure_eq_ok, Except.ok.injEq] at h
    obtain ⟨u, ⟨hw, rfl⟩, rfl⟩ := h
    exact .inl ⟨h1.1, h1.2, hw, rfl⟩
  · exact .inr (.inl ⟨h1, h2, by cases h; rfl⟩)
  · exact .inr (.inr ⟨h1, by simpa using h2, by cases h; rfl⟩)

/-- Everything a transfer step can do (R170 to R174). -/
theorem transferStep_cases {args : TransferArgs} {s t : State} {st : Status}
    (h : transferStep args s = .ok (st, t)) :
    (s.ctx.transferState = .setup ∧ (resetStep s).1 = .wait ∧ st = .wait ∧ t = (resetStep s).2)
    ∨ (s.ctx.transferState = .setup ∧ (resetStep s).1 = .noDevice ∧ st = .noDevice
        ∧ t = (resetStep s).2)
    ∨ (s.ctx.transferState = .setup ∧ (resetStep s).1 = .ok ∧ st = .wait
        ∧ t = transferSnapshot args (resetStep s).2)
    ∨ (s.ctx.transferState = .writeByte ∧ s.ctx.commandRemaining = 0 ∧ st = .ok
        ∧ t = s.setCtx { s.ctx with transferState := .setup })
    ∨ (s.ctx.transferState = .writeByte ∧ s.ctx.commandRemaining ≠ 0 ∧ st = .wait
        ∧ ∃ b, cmdByte s = .ok b
          ∧ t = (s.setSub ⟨true, 8, 8, s.sub.rate⟩).setCtx { s.ctx with
              commandCursor := s.ctx.commandCursor + 1
              commandRemaining := s.ctx.commandRemaining - 1
              tx := encodeByte s.cfg b
              lastOperationTimestamp := s.now
              transferState := .await })
    ∨ (s.ctx.transferState = .await ∧ st = .wait
        ∧ (t = s ∨ t = s.setCtx { s.ctx with transferState := .consume }))
    ∨ (s.ctx.transferState = .consume ∧ st = .wait
        ∧ ∃ u, captureByte (decodeByte s.cfg (rxSeen s)) (rxDrawn s) = .ok u
          ∧ t = u.setCtx { u.ctx with transferState := .writeByte }) := by
  unfold transferStep at h
  split at h
  · next hs =>
    simp only [Except.ok.injEq, transferSetup] at h
    cases hr : (resetStep s).1 <;> simp_all
  · next hs =>
    unfold transferWriteByte at h
    split_ifs at h with h0
    · simp_all
    · simp only [bind_eq_ok, pure_eq_ok, Except.ok.injEq, Prod.mk.injEq] at h
      obtain ⟨b, hb, rfl, rfl⟩ := h
      refine .inr (.inr (.inr (.inr (.inl ⟨hs, h0, rfl, b, hb, rfl⟩))))
  · next hs =>
    simp only [Except.ok.injEq, transferAwait, Prod.mk.injEq] at h
    obtain ⟨rfl, rfl⟩ := h
    refine .inr (.inr (.inr (.inr (.inr (.inl ⟨hs, rfl, ?_⟩)))))
    split_ifs
    · exact .inr rfl
    · exact .inl rfl
  · next hs =>
    simp only [transferConsume, bind_eq_ok, pure_eq_ok, Except.ok.injEq, Prod.mk.injEq] at h
    obtain ⟨u, hu, rfl, rfl⟩ := h
    exact .inr (.inr (.inr (.inr (.inr (.inr ⟨hs, rfl, u, hu, rfl⟩)))))

/-- What a byte capture leaves unchanged. -/
theorem captureByte_frame {d : Byte} {s t : State} (h : captureByte d s = .ok t) :
    t.cfg = s.cfg ∧ t.srch = s.srch ∧ t.sub = s.sub ∧ t.now = s.now ∧ t.result = s.result
      ∧ t.fault = s.fault ∧ t.env = s.env ∧ t.ctx.owner = s.ctx.owner ∧ t.ctx.rx = s.ctx.rx := by
  rcases captureByte_cases h with ⟨_, _, _, rfl⟩ | ⟨_, _, rfl⟩ | ⟨_, _, rfl⟩ <;> simp

/-- What a transfer step leaves unchanged, whichever state it is in. -/
theorem transferStep_frame {args : TransferArgs} {s t : State} {st : Status}
    (h : transferStep args s = .ok (st, t)) :
    t.cfg = s.cfg ∧ t.srch = s.srch ∧ t.now = s.now ∧ t.result = s.result ∧ t.fault = s.fault
      ∧ t.env = s.env ∧ t.ctx.owner = s.ctx.owner ∧ t.ctx.rx = s.ctx.rx := by
  rcases transferStep_cases h with ⟨_, _, _, rfl⟩ | ⟨_, _, _, rfl⟩ | ⟨_, _, _, rfl⟩ | ⟨_, _, _, rfl⟩ |
    ⟨_, _, _, b, _, rfl⟩ | ⟨_, _, rfl | rfl⟩ | ⟨_, _, u, hu, rfl⟩
  case inr.inr.inr.inr.inr.inr => have := captureByte_frame hu; simp_all
  all_goals simp [transferSnapshot]

/-! ## The search sequencer -/

/-- Recording a bit writes one byte, which is in the window (R206). -/
theorem recordBit_eq_ok {sel : Bool} {s t : State} :
    recordBit sel s = .ok t ↔ inWindow s.cfg (curRomAddr s) = true
      ∧ t = s.setMem (s.mem.write (curRomAddr s)
          (setBit (s.mem.read (curRomAddr s)) (romBitIndex s.srch.bit.toNat) sel)) := by
  simp only [recordBit, bind_eq_ok, memRead_eq_ok, memWrite_eq_ok]
  constructor
  · rintro ⟨m, ⟨h, rfl⟩, -, rfl⟩; exact ⟨h, rfl⟩
  · rintro ⟨h, rfl⟩; exact ⟨_, ⟨h, rfl⟩, h, rfl⟩

/-- The end of `S_DECIDE`: one byte of memory, entry 0 of the transmit buffer, a one-byte exchange and the
next phase (R206, R207). -/
theorem searchSelect_eq_ok {sel : Bool} {s t : State} :
    searchSelect sel s = .ok t ↔ inWindow s.cfg (curRomAddr s) = true
      ∧ t = { s with
          mem := s.mem.write (curRomAddr s)
            (setBit (s.mem.read (curRomAddr s)) (romBitIndex s.srch.bit.toNat) sel)
          ctx := { s.ctx with
            tx := s.ctx.tx.set 0 (bitSlot s.cfg sel), lastOperationTimestamp := s.now }
          sub := ⟨true, 1, 1, s.sub.rate⟩
          srch := { s.srch with phase := .writeWait } } := by
  simp only [searchSelect, bind_eq_ok, recordBit_eq_ok, pure_eq_ok, Except.ok.injEq]
  constructor
  · rintro ⟨u, ⟨h, rfl⟩, rfl⟩; exact ⟨h, rfl⟩
  · rintro ⟨h, rfl⟩; exact ⟨_, ⟨h, rfl⟩, rfl⟩

/-- The tie-break chooses a bit and changes `srch.currentCollision` at most, to the current position, and
then the bit chosen is 1 (R205). -/
theorem resolveCollision_cases {s t : State} {sel : Bool} (h : resolveCollision s = .ok (sel, t)) :
    t = s ∨ (sel = true ∧ t = s.setSrch { s.srch with currentCollision := s.srch.bit }) := by
  unfold resolveCollision at h
  split_ifs at h with h1 h2
  · simp only [bind_eq_ok, pure_eq_ok, Except.ok.injEq, Prod.mk.injEq] at h
    obtain ⟨m, -, rfl, rfl⟩ := h
    split_ifs with h3
    · exact .inr ⟨h3, rfl⟩
    · exact .inl rfl
  · cases h; exact .inl rfl
  · cases h; exact .inr ⟨rfl, rfl⟩

/-- Before the last collision the previous device's bit is replayed, and a 1 recorded (R205). -/
theorem resolveCollision_before {s : State} {sel : Bool} (h : s.srch.bit < s.srch.lastCollision)
    (hw : inWindow s.cfg (prevRomAddr s) = true)
    (hs : sel = (s.mem.read (prevRomAddr s)).getLsbD (romBitIndex s.srch.bit.toNat)) :
    resolveCollision s = .ok (sel,
      if sel = true then s.setSrch { s.srch with currentCollision := s.srch.bit } else s) := by
  unfold resolveCollision
  rw [if_pos h, memRead_eq_ok.2 ⟨hw, rfl⟩, hs]
  rfl

/-- At the last collision the 0 branch is taken and nothing is recorded (R205). -/
theorem resolveCollision_at {s : State} (h : s.srch.bit = s.srch.lastCollision) :
    resolveCollision s = .ok (false, s) := by
  unfold resolveCollision
  rw [if_neg (by rw [h]; exact BitVec.lt_irrefl _), if_pos h]

/-- After the last collision the 1 branch is taken and the position recorded (R205). -/
theorem resolveCollision_after {s : State} (h : s.srch.lastCollision < s.srch.bit) :
    resolveCollision s = .ok (true, s.setSrch { s.srch with currentCollision := s.srch.bit }) := by
  unfold resolveCollision
  rw [if_neg (BitVec.not_lt.2 (BitVec.le_of_lt h)), if_neg (fun e => by rw [e] at h; exact BitVec.lt_irrefl _ h)]

/-- A replay of a byte the core may not access faults (R205, 20_memory.md R61). -/
theorem resolveCollision_faults {s : State} (h : s.srch.bit < s.srch.lastCollision)
    (hw : inWindow s.cfg (prevRomAddr s) = false) :
    resolveCollision s = .error (.memRange (prevRomAddr s) .read) := by
  unfold resolveCollision
  rw [if_pos h, memRead_eq_error.2 ⟨hw, rfl⟩]
  rfl

/-- Everything the decision of a search can do: end the search, or record a bit and start its write slot,
the collision register kept or set to the current position (R204). -/
theorem searchDecide_cases {s t : State} (h : searchDecide s = .ok t) :
    t = terminate s.srch.found (rxDrawn s)
    ∨ ∃ sel u, searchSelect sel u = .ok t ∧ (u = rxDrawn s
        ∨ u = (rxDrawn s).setSrch { s.srch with currentCollision := s.srch.bit }) := by
  unfold searchDecide at h
  dsimp only at h
  split at h
  · exact .inl (by simpa using h.symm)
  · exact .inr ⟨true, _, h, .inl rfl⟩
  · exact .inr ⟨false, _, h, .inl rfl⟩
  · rw [bind_eq_ok] at h
    obtain ⟨⟨sel, u⟩, hr, hs⟩ := h
    refine .inr ⟨sel, u, hs, ?_⟩
    rcases resolveCollision_cases hr with rfl | ⟨-, rfl⟩
    · exact .inl rfl
    · exact .inr (by simp)

end Sys2Proof.Machine
end

