-- ==== Sys2Proof/Laws/PerInstr.lean ====
section
/-! SUPPORT. Statements made once per operation. The family EncodeOp: the low byte of the packed word is the operation's code (30_encoding.md R92, R94). -/

namespace Sys2Proof.Laws

open Sys2Proof

/-- The low byte of a packed record is its `OP` (R92). -/
theorem pack_low_byte (p : Params) (r : Req) : pack p r % 256 = r.op.toNat := by
  have h : pack p r = r.op.toNat + 256 * (r.imm.toNat + r.a * 2 ^ 16 + r.la * 2 ^ (16 + p.addrW)
      + r.b * 2 ^ (16 + p.addrW + p.lenW) + r.lb * 2 ^ (16 + p.addrW + p.lenW + p.addrW)) := by
    simp only [pack, Nat.pow_add]
    ring
  rw [h, Nat.add_mul_mod_self_left, Nat.mod_eq_of_lt r.op.isLt]

/-- The low byte of the packed word of an operation is its code. -/
def EncodeOp.Statement (i : Instr) : Prop := ∀ p : Params, encode p i % 256 = i.opcode.toNat

theorem EncodeOp.clear : EncodeOp.Statement .clear := fun p => pack_low_byte p _
theorem EncodeOp.reset : EncodeOp.Statement .reset := fun p => pack_low_byte p _
theorem EncodeOp.send (a la b lb : Nat) (skip : Byte) : EncodeOp.Statement (.send a la b lb skip) :=
  fun p => pack_low_byte p _
theorem EncodeOp.search (a : Nat) (max : Byte) : EncodeOp.Statement (.search a max) :=
  fun p => pack_low_byte p _
theorem EncodeOp.crc8 (a la : Nat) : EncodeOp.Statement (.crc8 a la) := fun p => pack_low_byte p _
theorem EncodeOp.crc16 (a la : Nat) (seed : Half) : EncodeOp.Statement (.crc16 a la seed) :=
  fun p => pack_low_byte p _
theorem EncodeOp.checkCrc16 (a la b : Nat) (seed : Half) :
    EncodeOp.Statement (.checkCrc16 a la b seed) := fun p => pack_low_byte p _
theorem EncodeOp.encode (v : Byte) (a : Nat) : EncodeOp.Statement (.encode v a) :=
  fun p => pack_low_byte p _
theorem EncodeOp.decode (a : Nat) : EncodeOp.Statement (.decode a) := fun p => pack_low_byte p _

end Sys2Proof.Laws
end

