-- ==== Sys2Proof/Tests/Slice0.lean ====
section
/-! SUPPORT. The model's own tests: ill-formed terms refused, words written out from 30_encoding.md R92 and R94 decoded, one step of each operation on small states with the results of 95_test_vectors.md, and for every statement with hypotheses a witness that meets them. -/

namespace Sys2Proof.Tests

open Sys2Proof Sys2Proof.Machine

/-! ## Small states -/

/-- Eight equal slots. -/
def slots (b : Byte) : Slots := #v[b, b, b, b, b, b, b, b]

/-- An idle machine in the reference configuration, every value concrete. -/
def s0 : State where
  cfg := Params.reference
  ctx := { Ctx.powerOn with tx := slots 0x11, rx := slots 0x22, baud := .transfer }
  srch := Srch.clear
  sub := ⟨false, 0, 0, .transfer⟩
  now := 100
  mem := []
  result := none
  fault := none
  draws := 0
  env := []

/-- The idle machine with consecutive bytes in memory. -/
def withBytes (a : Nat) (bs : List Byte) : State :=
  s0.setMem ((bs.zipIdx a).foldl (fun m c => m.write c.2 c.1) [])

/-- The idle machine whose window is 0x0000..0x0FFF (95_test_vectors.md V-F9). -/
def small : State := { s0 with cfg := { Params.reference with window := [⟨0, 0x1000⟩] } }

/-- A machine inside a bus reset, in the given state with the given budget and echo. -/
def resetting (r : ResetState) (budget : Byte) (echo : Byte) : State :=
  { s0 with
    ctx := { s0.ctx with
      owner := .reset, resetState := r, resetRetryBudget := budget, rx := slots echo, baud := .reset }
    sub := ⟨false, 0, 0, .reset⟩ }

/-- A machine inside a send, in the given state. -/
def sending (t : TransferState) (cmd left data cap : Nat) (skip : Byte) : State :=
  s0.setCtx { s0.ctx with
    owner := .transfer, transferState := t, commandCursor := cmd, commandRemaining := left
    dataCursor := data, dataRemaining := cap, readSkip := skip }

/-- A machine inside a search, in the given phase. -/
def searching (ph : Phase) (bit last : BitVec 7) (found : Byte) : State :=
  { s0 with
    ctx := { s0.ctx with owner := .search }
    srch := { phase := ph, out := 0x100, max := 4, found := found, lastCollision := last,
              currentCollision := 0, bit := bit } }

/-- The same with an exchange in flight that started at time 100. -/
def inFlight (now : Millis) (s : State) : State :=
  { s with ctx := { s.ctx with lastOperationTimestamp := 100 }, sub := ⟨true, 8, 8, s.sub.rate⟩, now := now }

/-- The pending exchange answered by the pair `a`, `b`. -/
def pair (a b : Byte) (s : State) : State :=
  s.setCtx { s.ctx with rx := #v[a, b, 0, 0, 0, 0, 0, 0] }

/-- The outcome is a next state with the property. -/
def next (o : Host.Outcome State Fault Refusal) (p : State → Bool) : Bool :=
  match o with
  | .next t => p t
  | _ => false

/-- The outcome is this fault. -/
def faults (o : Host.Outcome State Fault Refusal) (r : Fault) : Bool :=
  match o with
  | .fault q => q == r
  | _ => false

/-- The step handed this result. -/
def result (t : State) (st : Status) (v : Half) : Bool := t.result == some ⟨st, v⟩

/-! ## WellFormed -/

theorem test_wf_send : (Instr.send 0xFFFF 0xFFFF 0xFFFF 0xFFFF 0xFF).wf Params.reference = true := by decide
theorem test_illformed_send_command_address :
    (Instr.send 0x10000 0 0 0 0).wf Params.reference = false := by decide
theorem test_illformed_send_command_length :
    (Instr.send 0 0x10000 0 0 0).wf Params.reference = false := by decide
theorem test_illformed_send_data_address :
    (Instr.send 0 0 0x10000 0 0).wf Params.reference = false := by decide
theorem test_illformed_send_data_length :
    (Instr.send 0 0 0 0x10000 0).wf Params.reference = false := by decide
theorem test_illformed_search : (Instr.search 0x10000 0).wf Params.reference = false := by decide
theorem test_illformed_crc8_address : (Instr.crc8 0x10000 0).wf Params.reference = false := by decide
theorem test_illformed_crc8_length : (Instr.crc8 0 0x10000).wf Params.reference = false := by decide
theorem test_illformed_crc16_address : (Instr.crc16 0x10000 0 0).wf Params.reference = false := by decide
theorem test_illformed_crc16_length : (Instr.crc16 0 0x10000 0).wf Params.reference = false := by decide
theorem test_illformed_check_payload : (Instr.checkCrc16 0x10000 0 0 0).wf Params.reference = false := by decide
theorem test_illformed_check_length : (Instr.checkCrc16 0 0x10000 0 0).wf Params.reference = false := by decide
theorem test_illformed_check_inverse : (Instr.checkCrc16 0 0 0x10000 0).wf Params.reference = false := by decide
theorem test_illformed_encode : (Instr.encode 0 0x10000).wf Params.reference = false := by decide
theorem test_illformed_decode : (Instr.decode 0x10000).wf Params.reference = false := by decide
theorem test_illformed_attempts :
    ({ Params.reference with resetAttempts := 0 } : Params).wf = false := by decide
theorem test_illformed_length_width : ({ Params.reference with lenW := 7 } : Params).wf = false := by decide
theorem test_misfit_record : (Req.mk 8 0 0 0 0x10000 0).fits Params.reference = false := by decide

/-! ## Decode: each field written at its place of R92 (`OP` 7:0, `IMM` 23:8, `A` 39:24, `LA` 55:40,
`B` 71:56, `LB` 87:72), the operation code of R94, the operands of R93 -/

theorem test_word_clear : decodeTableWord 88 0x01 = some .clear := by decide
theorem test_word_reset : decodeTableWord 88 0x02 = some .reset := by decide
theorem test_word_send : decodeTableWord 88
    (0x03 + 0x05 <<< 8 + 0x1234 <<< 24 + 0x0102 <<< 40 + 0x5678 <<< 56 + 0x0304 <<< 72)
      = some (.send 0x1234 0x0102 0x5678 0x0304 0x05) := by decide
theorem test_word_search : decodeTableWord 88 (0x04 + 0x0108 <<< 8 + 0x0200 <<< 24)
    = some (.search 0x0200 0x08) := by decide
theorem test_word_crc8 : decodeTableWord 88 (0x05 + 0x0080 <<< 24 + 0x0007 <<< 40)
    = some (.crc8 0x0080 7) := by decide
theorem test_word_crc16 : decodeTableWord 88 (0x06 + 0x0440 <<< 8 + 0x0001 <<< 24 + 0x0002 <<< 40)
    = some (.crc16 0x0001 2 0x0440) := by decide
theorem test_word_check : decodeTableWord 88
    (0x07 + 0x1234 <<< 8 + 0x0010 <<< 24 + 0x0003 <<< 40 + 0x0400 <<< 56)
      = some (.checkCrc16 0x0010 3 0x0400 0x1234) := by decide
theorem test_word_encode : decodeTableWord 88 0x000000000000030001FF08 = some (.encode 0xFF 0x0300) := by decide
theorem test_word_decode : decodeTableWord 88 0x0000000000000300000009 = some (.decode 0x0300) := by decide
theorem test_reserved_zero : decode Params.reference 0 = .error (.reservedOp 0) := by decide
theorem test_reserved_high : decode Params.reference 0xFF = .error (.reservedOp 0xFF) := by decide
theorem test_encode_words :
    encode Params.reference (.send 0x0000 9 0x0080 8 1) = 0x0008008000090000000103
    ∧ encode Params.reference (.checkCrc16 0 0 0x0400 0x1234) = 0x0000040000000000123407 := by decide

/-! ## One step of each operation (95_test_vectors.md) -/

/-- V-X1. -/
theorem test_clear : next (exec .clear (sending .consume 3 2 9 4 5)) (fun t => result t .ok 0
    && decide (t.ctx.owner = .idle ∧ t.ctx.transferState = .setup ∧ t.ctx.readSkip = 0
      ∧ t.ctx.tx = slots 0x11 ∧ t.ctx.baud = .transfer)) = true := by decide
/-- V-R1 poll 1. -/
theorem test_reset_init : next (exec .reset s0) (fun t => result t .wait 0
    && decide (t.ctx.owner = .reset ∧ t.ctx.resetState = .sendPresence ∧ t.ctx.resetRetryBudget = 4
      ∧ t.sub.rate = .reset)) = true := by decide
/-- V-R2: the fourth failed check. -/
theorem test_reset_exhausted : next (exec .reset (resetting .check 1 0xF0)) (fun t => result t .wait 0
    && decide (t.ctx.resetRetryBudget = 0 ∧ t.ctx.resetState = .finalize)) = true := by decide
/-- V-T1: byte 1 goes out. -/
theorem test_send_write : next (exec (.send 0 0 0 0 0)
    ((sending .writeByte 0 9 0x80 8 1).setMem (withBytes 0 [0x33]).mem)) (fun t => result t .wait 0
      && decide (t.ctx.tx = #v[0xFF, 0xFF, 0, 0, 0xFF, 0xFF, 0, 0] ∧ t.ctx.commandCursor = 1
        ∧ t.ctx.transferState = .await ∧ t.sub = ⟨true, 8, 8, .transfer⟩)) = true := by decide
/-- V-T6: the last byte of capacity is stored, and the counter then wraps. -/
theorem test_send_consume : next (exec (.send 0 0 0 0 0)
    (pair 0xFF 0xFF (sending .consume 1 2 0x80 1 0))) (fun t => t.mem.read 0x80 == 0x03
      && decide (t.ctx.dataCursor = 0x81 ∧ t.ctx.dataRemaining = 0 ∧ t.ctx.transferState = .writeByte))
        = true
    ∧ next (exec (.send 0 0 0 0 0) (sending .consume 2 1 0x81 0 0)) (fun t => t.ctx.readSkip == 0xFF)
      = true := by decide
/-- V-S6: no capacity. -/
theorem test_search_start : next (exec (.search 0x100 0) s0) (fun t => decide (t.ctx.owner = .search
    ∧ t.srch.phase = .pass ∧ t.srch.out = 0x100 ∧ t.result = none)) = true := by decide
/-- V-S2 pass 2 position 1: the previous slot's 1 is replayed and recorded. -/
theorem test_search_replay : (match searchStep ((pair 0xFE 0xFE (searching .decide 1 2 1)).setMem
    [(0x100, 0x03)]) with
  | .ok t => decide (t.srch.currentCollision = 1 ∧ t.mem.read 0x108 = 0x01
      ∧ t.ctx.tx[0] = 0xFF ∧ t.srch.phase = .writeWait)
  | .error _ => false) = true := by decide
/-- V-C1. -/
theorem test_crc8 : next (exec (.crc8 0x80 1) (withBytes 0x80 [0x28, 0xFF]))
    (fun t => result t .ok 0xE1) = true := by decide
/-- V-C4. -/
theorem test_crc8_table : crc8 { Params.reference with crc8Impl := .table } [0x5A] = 0xA5
    ∧ crc8 Params.reference [0x5A] = 0xA5 := by decide
/-- V-K1. -/
theorem test_crc16 : next (exec (.crc16 0 3 0) (withBytes 0 [0x0F, 0, 0]))
    (fun t => result t .ok 0x0330) = true := by decide
/-- V-K1, the bitwise form of another polynomial's configuration at the default value. -/
theorem test_crc16_bitwise : crc16ByteBitwise 0xA001 0x1234 0x01 = 0x17D2
    ∧ crc16ByteOddParity 0x1234 0x01 = 0x17D2 := by decide
/-- V-K5. -/
theorem test_check_true : next (exec (.checkCrc16 0 3 3 0) (withBytes 0 [0x0F, 0, 0, 0xCF, 0xFC]))
    (fun t => result t .ok 1) = true := by decide
/-- V-K8. -/
theorem test_check_swapped : next (exec (.checkCrc16 0 3 3 0) (withBytes 0 [0x0F, 0, 0, 0xFC, 0xCF]))
    (fun t => result t .ok 0) = true := by decide
/-- V-B1. -/
theorem test_encode : next (exec (.encode 0xA5 0x300) s0) (fun t => result t .ok 0
    && bytesAt t.mem 0x300 8 == [0xFF, 0, 0xFF, 0, 0, 0xFF, 0, 0xFF]) = true := by decide
/-- V-F9: a write outside the window. -/
theorem test_encode_faults : faults (exec (.encode 0x12 0x0FFC) small) (.memRange 0x1000 .write) = true := by
  decide
/-- V-B5: only an exact 0xFF reads as 1. -/
theorem test_decode : next (exec (.decode 0x300)
    (withBytes 0x300 [0xFF, 0xFE, 0xFF, 0, 0x7F, 0xFF, 0xF8, 0xFF])) (fun t => result t .ok 0xA5) = true := by
  decide
/-- V-F9: a read outside the window. -/
theorem test_decode_faults : faults (exec (.decode 0x0FFE) small) (.memRange 0x1000 .read) = true := by decide

/-! ## Faults and agents -/

/-- V-F8: an illegal code goes before an overlap; V-F1: it is recorded with its code. -/
theorem test_illegal_first : next (step ((resetting .await 4 0).withFetchWord 88 0x0A))
    (fun t => t.fault == some (.illegalOp 0x0A) && t.ctx.owner == .reset) = true := by decide
/-- V-F4. -/
theorem test_overlap : faults (exec .reset (sending .setup 0 0 0 0 0)) (.overlap 0x02 .transfer) = true := by
  decide
/-- V-F10. -/
theorem test_terminal : faults (step ((s0.setFault (some (.illegalOp 0))).withFetchWord 88 1))
    (.illegalOp 0) = true := by decide
/-- R340: a request waits for the end of a search; the core steps. -/
theorem test_blocked : next (step ((searching .pairStart 1 0 0).withFetchWord 88 1))
    (fun t => t.srch.phase == .pairWait && t.env == [.request 1]) = true := by decide
/-- V-R6: the timeout is counted modulo 2^32. -/
theorem test_timeout_wraps :
    exchDone { s0 with
      ctx := { s0.ctx with lastOperationTimestamp := 0xFFFFFFFE }
      sub := ⟨true, 1, 1, .reset⟩, now := 2 } = false
    ∧ exchDone { s0 with
      ctx := { s0.ctx with lastOperationTimestamp := 0xFFFFFFFE }
      sub := ⟨true, 1, 1, .reset⟩, now := 3 } = true := by decide
/-- R72: the armed entries only. -/
theorem test_completion : next (step { s0 with sub := ⟨true, 2, 2, .transfer⟩, env := [.complete (slots 0x33)] })
    (fun t => t.ctx.rx == #v[0x33, 0x33, 0x22, 0x22, 0x22, 0x22, 0x22, 0x22] && !t.sub.busy) = true := by
  decide
/-- A write of the value an unlisted address reads as removes the entry. -/
theorem test_memory_canonical : Memory.write [(1, 5), (3, 7)] 3 0 = [(1, 5)]
    ∧ Memory.write [(1, 5), (3, 7)] 2 9 = [(1, 5), (2, 9), (3, 7)] := by decide
/-- R96. -/
theorem test_result_word : (Result.mk .noDevice 0).pack = 2 ∧ (Result.mk .ok 0x37).pack = 0x00370001 := by
  decide

/-! ## The first step after reset, for each row -/

theorem test_first_clear : next (step (State.reset.withFetchWord 88 0x01)) (fun t => result t .ok 0) = true := by
  decide
theorem test_first_reset : next (step (State.reset.withFetchWord 88 0x02)) (fun t => result t .wait 0) = true := by
  decide
theorem test_first_send : next (step (State.reset.withFetchWord 88 0x03)) (fun t => result t .wait 0) = true := by
  decide
theorem test_first_search : next (step (State.reset.withFetchWord 88 0x04))
    (fun t => decide (t.ctx.owner = .search)) = true := by decide
theorem test_first_crc8 : next (step (State.reset.withFetchWord 88 0x05)) (fun t => result t .ok 0) = true := by
  decide
theorem test_first_crc16 : next (step (State.reset.withFetchWord 88 0x06)) (fun t => result t .ok 0) = true := by
  decide
theorem test_first_check : next (step (State.reset.withFetchWord 88 0x07)) (fun t => result t .ok 0) = true := by
  decide
theorem test_first_encode : next (step (State.reset.withFetchWord 88 0x08)) (fun t => result t .ok 0) = true := by
  decide
theorem test_first_decode : next (step (State.reset.withFetchWord 88 0x09)) (fun t => result t .ok 0) = true := by
  decide

/-! ## Witnesses: for each statement with hypotheses a state and operands that meet them together -/

theorem witness_DecodeInvertsEncode :
    (Instr.send 0xFFFF 0xFFFF 0xFFFF 0xFFFF 0xFF).wf Params.reference = true := by decide
theorem witness_PackedWordHoldsEveryField :
    (Req.mk 0xFF 0xFFFF 0xFFFF 0xFFFF 0xFFFF 0xFFFF).fits Params.reference = true := by decide
theorem witness_DecodedOperandsFit :
    decode Params.reference 0xFFFFFFFFFFFFFFFFFFFF03 = .ok (.send 0xFFFF 0xFFFF 0xFFFF 0xFFFF 0xFF) := by
  decide
/-- ENCODE and CLEAR records that differ in every field R97 lets differ. -/
theorem witness_UnusedFieldsAreIgnored :
    ((Req.mk 8 0x01FF 0x300 0 0 0).fits Params.reference = true
      ∧ (Req.mk 8 0x77FF 0x300 9 0xFFFF 0xFFFF).fits Params.reference = true
      ∧ (0x01FF#16).extractLsb' 0 8 = (0x77FF#16).extractLsb' 0 8)
    ∧ (Req.mk 1 0 0 0 0 0).fits Params.reference = true
    ∧ (Req.mk 1 0xFFFF 1 2 3 4).fits Params.reference = true := by decide
theorem witness_IllegalCodes_reserved : HostReady (s0.setEnv [.request 0x0A])
    ∧ (0x0A : Byte) ≤ BitVec.ofNat 8 0x0A ∧ HostReady (s0.setEnv [.request 0xFF])
    ∧ (0x0A : Byte) ≤ BitVec.ofNat 8 0xFF := by decide
theorem witness_IllegalCodes_featureAbsent :
    HostReady { s0 with cfg := { Params.reference with featureSearch := false }, env := [.request 4] }
    ∧ HostReady { s0 with cfg := { Params.reference with featureCrc16 := false }, env := [.request 7] } := by
  decide
/-- The last legal code. -/
theorem witness_IllegalCodes_legal : HostReady (s0.setEnv [.request 9])
    ∧ next (step (s0.setEnv [.request 9])) (fun t => t.fault == none) = true := by decide
/-- A next state of each operation, the SEARCH without a result among them. -/
theorem witness_ResultsByOperation :
    ∀ i ∈ [Instr.clear, .reset, .send 0 1 0x80 1 0, .search 0x100 1, .crc8 0 1, .crc16 0 1 0,
      .checkCrc16 0 1 2 0, .encode 1 0x300, .decode 0x300],
    next (exec i (s0.setResult (some ⟨.wait, 0⟩)))
      (fun t => decide (t.result = none) == decide (i.opcode = 0x04)) = true := by decide
theorem witness_CodecRoundTrip : Params.reference.slotOne ≠ Params.reference.slotZero
    ∧ (0xFE : Byte) ≠ Params.reference.slotOne ∧ (0x00 : Byte) ≠ Params.reference.slotOne := by decide
/-- Both clauses at the end of the address space. -/
theorem witness_EncodeWritesTheSlots : HostReady s0 ∧ Memory.wf s0.mem ∧ Accessible s0.cfg 0xFFF8 8
    ∧ Accessible s0.cfg 0xFFF9 7 ∧ inWindow s0.cfg (0xFFF9 + 7) = false := by decide
theorem witness_DecodeReadsTheSlots : HostReady s0 ∧ Accessible s0.cfg 0xFFF8 8
    ∧ Accessible s0.cfg 0x10000 0 ∧ inWindow s0.cfg (0x10000 + 0) = false := by decide
theorem witness_AccessOutsideTheWindowFaults :
    inWindow small.cfg 0x0FFF = true ∧ inWindow small.cfg 0x1000 = false := by decide
/-- The last byte of the window and the first past it, both of them addresses. -/
theorem witness_HostWriteIsSeenByTheCore :
    ∀ a ∈ [0x0FFF, 0x1000], HostReady (small.setEnv [.hostWrite a 1]) ∧ Memory.wf small.mem
      ∧ a < 2 ^ small.cfg.addrW ∧ inWindow small.cfg a = decide (a = 0x0FFF) := by decide
theorem witness_ResetInitAction : s0.ctx.resetState = .init := by decide
theorem witness_ResetPulseAction : (resetting .sendPresence 4 0).ctx.resetState = .sendPresence := by decide
/-- Ended by idle, ended at exactly the timeout, and one millisecond short of it. -/
theorem witness_AwaitStatesPollTheExchange :
    ((resetting .await 4 0).sub.busy = false ∧ (resetting .await 4 0).ctx.resetState = .await)
    ∧ ((inFlight 105 (sending .await 0 0 0 0 0)).ctx.transferState = .await
      ∧ (inFlight 105 s0).cfg.timeoutMs
        ≤ (inFlight 105 s0).now - (inFlight 105 s0).ctx.lastOperationTimestamp)
    ∧ ((inFlight 104 s0).sub.busy = true ∧ (inFlight 104 s0).now
        - (inFlight 104 s0).ctx.lastOperationTimestamp < (inFlight 104 s0).cfg.timeoutMs) := by decide
/-- Each clause of `CHECK`, the exchange complete; budgets 2 and 1 are the two sides of its test. -/
theorem witness_ResetCheckAction :
    (∀ b e, (resetting .check b e).ctx.resetState = .check ∧ (resetting .check b e).sub.busy = false)
    ∧ ((resetting .check 4 0xE0).ctx.rx[0] ≠ Params.reference.resetByte)
    ∧ ((resetting .check 2 0xF0).ctx.rx[0] = Params.reference.resetByte
      ∧ 1 < (resetting .check 2 0xF0).ctx.resetRetryBudget)
    ∧ ((resetting .check 1 0xF0).ctx.rx[0] = Params.reference.resetByte
      ∧ (resetting .check 1 0xF0).ctx.resetRetryBudget ≤ 1) := ⟨fun _ _ => ⟨rfl, rfl⟩, by decide⟩
/-- `CHECK` after a timeout: the hypotheses on the byte seen can be met whatever it is. -/
theorem witness_ResetCheckAction_timeout : ∃ (echo : Byte) (n : Nat),
    (inFlight 105 (resetting .check 4 0)).ctx.resetState = .check
    ∧ (inFlight 105 (resetting .check 4 0)).sub.busy = true
    ∧ echo = (Config.timedOutRx (inFlight 105 (resetting .check 4 0)).draws)[0]
    ∧ n = (inFlight 105 (resetting .check 4 0)).draws + 1 := ⟨_, _, rfl, rfl, rfl, rfl⟩
theorem witness_ResetFinalizeAction : (resetting .finalize 0 0).ctx.resetState = .finalize
    ∧ (resetting .finalize 3 0).ctx.resetState = .finalize := by decide
theorem witness_ResetRequestRunsOneState : s0.fault = none ∧ s0.ctx.owner = .idle
    ∧ (resetting .check 1 0).ctx.owner = .reset ∧ (sending .setup 0 0 0 0 0).ctx.owner = .transfer := by
  decide
theorem witness_ResetRequestFrame :
    next (exec .reset (resetting .sendPresence 4 0)) (fun t => t.ctx.tx[0] == 0xF0) = true
    ∧ next (exec .reset (resetting .await 4 0)) (fun t => t.ctx.tx == slots 0x11) = true := by decide
/-- Four echoes of the reset byte. -/
theorem witness_ResetGivesUpAfterExactlyItsAttempts :
    let echoes := List.replicate 4 (slots 0xF0)
    let s := s0.setEnv (resetEvents 2 echoes ++ [.request 2])
    HostReady s ∧ s.ctx.owner = .idle ∧ s.ctx.resetState = .init ∧ s.cfg.wf = true
    ∧ encode s.cfg .reset = 2 ∧ echoes.length = s.cfg.resetAttempts.toNat
    ∧ (∀ e ∈ echoes, e[0] = s.cfg.resetByte) :=
  ⟨⟨rfl, by decide⟩, rfl, rfl, rfl, rfl, rfl, fun e he => by rw [List.eq_of_mem_replicate he]; rfl⟩
/-- Presence on the last attempt. -/
theorem witness_ResetSucceedsOnTheAttemptThatSeesPresence :
    let fails := List.replicate 3 (slots 0xF0)
    let s := s0.setEnv (resetEvents 2 (fails ++ [slots 0xE0]) ++ [.request 2])
    HostReady s ∧ s.ctx.owner = .idle ∧ s.ctx.resetState = .init ∧ encode s.cfg .reset = 2
    ∧ fails.length < s.cfg.resetAttempts.toNat ∧ (∀ e ∈ fails, e[0] = s.cfg.resetByte)
    ∧ (slots 0xE0)[0] ≠ s.cfg.resetByte :=
  ⟨⟨rfl, by decide⟩, rfl, rfl, rfl, by decide, fun e he => by rw [List.eq_of_mem_replicate he]; rfl,
    by decide⟩
/-- Each status the reset step of a `SETUP` can answer. -/
theorem witness_TransferSetupAction :
    (resetStep (sending .setup 0 0 0 0 0)).1 = .wait
    ∧ (resetStep (resetting .finalize 0 0)).1 = .noDevice
    ∧ (resetStep (resetting .finalize 1 0)).1 = .ok
    ∧ (resetting .finalize 1 0).ctx.transferState = .setup := by decide
/-- No byte left; a byte from the last address; a byte past it; a byte from the constant. -/
theorem witness_TransferWriteByteAction :
    (∀ c n, (sending .writeByte c n 0 0 0).ctx.transferState = .writeByte
      ∧ (sending .writeByte c n 0 0 0).ctx.commandSource = .host)
    ∧ (sending .writeByte 0 0 0 0 0).ctx.commandRemaining = 0
    ∧ ((sending .writeByte 0xFFFF 1 0 0 0).ctx.commandRemaining ≠ 0
      ∧ inWindow (sending .writeByte 0xFFFF 1 0 0 0).cfg (sending .writeByte 0xFFFF 1 0 0 0).ctx.commandCursor
        = true)
    ∧ ((sending .writeByte 0x10000 1 0 0 0).ctx.commandRemaining ≠ 0
      ∧ inWindow (sending .writeByte 0x10000 1 0 0 0).cfg
        (sending .writeByte 0x10000 1 0 0 0).ctx.commandCursor = false)
    ∧ { (sending .writeByte 0 1 0 0 0).ctx with commandSource := .searchConst }.commandSource
      = .searchConst :=
  ⟨fun _ _ => ⟨rfl, rfl⟩, by decide⟩
/-- Each branch of `CONSUME`: store at the last address, past it, skip, capacity used up, never. -/
theorem witness_TransferConsumeAction :
    (∀ d n k, (sending .consume 0 0 d n k).ctx.transferState = .consume
      ∧ (sending .consume 0 0 d n k).sub.busy = false)
    ∧ (let c := (sending .consume 0 0 0xFFFF 1 0).ctx
       c.readSkip = 0 ∧ 0 < c.dataRemaining ∧ inWindow Params.reference c.dataCursor = true)
    ∧ (let c := (sending .consume 0 0 0x10000 1 0).ctx
       c.readSkip = 0 ∧ 0 < c.dataRemaining ∧ inWindow Params.reference c.dataCursor = false)
    ∧ (let c := (sending .consume 0 0 0 1 1).ctx
       ¬ (c.readSkip = 0 ∧ 0 < c.dataRemaining) ∧ c.readSkip ≠ Params.reference.skipNever)
    ∧ (let c := (sending .consume 0 0 0 0 0).ctx
       ¬ (c.readSkip = 0 ∧ 0 < c.dataRemaining) ∧ c.readSkip ≠ Params.reference.skipNever)
    ∧ (let c := (sending .consume 0 0 0 1 0xFF).ctx
       ¬ (c.readSkip = 0 ∧ 0 < c.dataRemaining) ∧ c.readSkip = Params.reference.skipNever) :=
  ⟨fun _ _ _ => ⟨rfl, rfl⟩, by decide⟩
theorem witness_TransferConsumeAction_timeout : ∃ (x : Slots) (n : Nat),
    (inFlight 105 (sending .consume 0 0 0 1 0)).sub.busy = true
    ∧ x = Config.timedOutRx (inFlight 105 (sending .consume 0 0 0 1 0)).draws
    ∧ n = (inFlight 105 (sending .consume 0 0 0 1 0)).draws + 1 := ⟨_, _, rfl, rfl, rfl⟩
/-- A step that answers, and one that faults at the last address plus one. -/
theorem witness_SendRequestRunsOneState :
    (s0.fault = none ∧ s0.ctx.owner = .idle ∧ (sending .await 0 0 0 0 0).ctx.owner = .transfer
      ∧ (resetting .await 1 0).ctx.owner = .reset)
    ∧ (match transferStep ⟨.host, 0, 1, 0, 0, 0⟩ (sending .await 0 0 0 0 0) with
      | .ok r => r.1 == .wait | .error _ => false) = true
    ∧ (match transferStep ⟨.host, 0, 1, 0, 0, 0⟩ (sending .writeByte 0x10000 1 0 0 0) with
      | .ok _ => false | .error r => r == .memRange 0x10000 .read) = true := by decide
theorem witness_SendCompletes : (sending .writeByte 0xFFFF 1 0xFFFF 1 0).fault = none
    ∧ (sending .writeByte 0xFFFF 1 0xFFFF 1 0).ctx.owner = .transfer
    ∧ inWindow Params.reference (sending .writeByte 0xFFFF 1 0xFFFF 1 0).ctx.commandCursor = true
    ∧ inWindow Params.reference (sending .consume 0xFFFF 1 0xFFFF 1 0).ctx.dataCursor = true := by decide
/-- Each state of the transfer machine. -/
theorem witness_SendRequestFrame :
    next (exec (.send 0 1 0 0 0) (sending .setup 0 0 0 0 0)) (fun t => t.ctx.transferState == .setup) = true
    ∧ next (exec (.send 0 1 0 0 0) (sending .writeByte 0 1 0 0 0)) (fun t => t.ctx.transferState == .await)
      = true
    ∧ next (exec (.send 0 1 0 0 0) (sending .await 0 1 0 0 0)) (fun t => t.ctx.transferState == .consume)
      = true
    ∧ next (exec (.send 0 1 0 0 0) (sending .consume 0 1 0 1 0)) (fun t => t.ctx.dataCursor == 1)
      = true := by decide
/-- Two command bytes up to the last address, the second echo stored there. -/
theorem witness_SendStoresTheEchoesAfterTheSkip :
    let i := Instr.send 0xFFFE 2 0xFFFF 1 1
    let echoes := [slots 0xFF, slots 0xFF]
    let s := (sending .writeByte 0xFFFE 2 0xFFFF 1 1).setEnv (sendEvents (encode Params.reference i) echoes)
    HostReady s ∧ s.ctx.owner = .transfer ∧ s.ctx.transferState = .writeByte
    ∧ s.ctx.commandSource = .host ∧ s.ctx.commandRemaining = echoes.length ∧ s.cfg.skipNever = 0xFF
    ∧ Memory.wf s.mem ∧ i.wf s.cfg = true ∧ Accessible s.cfg s.ctx.commandCursor echoes.length
    ∧ capturedBytes s.cfg s.ctx.readSkip s.ctx.dataRemaining echoes = [0xFF]
    ∧ Accessible s.cfg s.ctx.dataCursor 1 := by decide
theorem witness_SearchRequestStartsTheSequencer :
    (HostReady s0 ∧ s0.ctx.owner = .idle ∧ s0.cfg.featureSearch = true)
    ∧ (HostReady (resetting .await 1 0) ∧ (resetting .await 1 0).ctx.owner ≠ .idle
      ∧ (resetting .await 1 0).cfg.featureSearch = true)
    ∧ HostReady { s0 with cfg := { Params.reference with featureSearch := false } } := by decide
/-- No room left; each status the transfer step of a pass can answer. -/
theorem witness_SearchPassAction :
    (searching .pass 0 0 4).srch.max ≤ (searching .pass 0 0 4).srch.found
    ∧ (searching .pass 0 0 3).srch.found < (searching .pass 0 0 3).srch.max
    ∧ (let st := fun c : Ctx => match transferStep (searchArgs Params.reference)
          ((searching .pass 0 0 0).setCtx c) with | .ok r => some r.1 | .error _ => none
       st (searching .pass 0 0 0).ctx = some .wait
       ∧ st { (resetting .finalize 0 0).ctx with owner := .search } = some .noDevice
       ∧ st { (sending .writeByte 0 0 0 0 0).ctx with owner := .search } = some .ok) := by decide
/-- Ended and not ended; the last position but one, the last, with and without a collision recorded. -/
theorem witness_SearchPairAndWaitActions :
    (searching .pairStart 1 0 0).srch.phase = .pairStart
    ∧ (searching .pairWait 1 0 0).sub.busy = false
    ∧ ¬ ((inFlight 104 (searching .pairWait 1 0 0)).sub.busy = false
        ∨ (inFlight 104 s0).cfg.timeoutMs
          ≤ (inFlight 104 s0).now - (inFlight 104 s0).ctx.lastOperationTimestamp)
    ∧ (searching .writeWait 63 0 0).srch.bit < 64 ∧ 64 ≤ (searching .writeWait 64 0 0).srch.bit
    ∧ (searching .writeWait 64 0 0).srch.currentCollision = 0
    ∧ { (searching .writeWait 64 0 0).srch with currentCollision := 2 }.currentCollision ≠ 0 := by decide
/-- Silence, both agreements, and a collision before, at and after the last one; all with the slot in the
window. -/
theorem witness_SearchDecideAction :
    (∀ a b p l, (pair a b (searching .decide p l 1)).srch.phase = .decide
      ∧ (pair a b (searching .decide p l 1)).sub.busy = false
      ∧ (pair a b (searching .decide p l 1)).ctx.rx[0] = a
      ∧ (pair a b (searching .decide p l 1)).ctx.rx[1] = b)
    ∧ (0xFF : Byte) = s0.cfg.slotOne ∧ (0xFE : Byte) ≠ s0.cfg.slotOne
    ∧ ((searching .decide 1 2 1).srch.bit < (searching .decide 1 2 1).srch.lastCollision
      ∧ inWindow Params.reference (0x100 + 8 * 1 + (1 - 1) / 8) = true
      ∧ inWindow Params.reference (0x100 + 8 * (1 - 1) + (1 - 1) / 8) = true)
    ∧ (searching .decide 2 2 1).srch.bit = (searching .decide 2 2 1).srch.lastCollision
    ∧ (searching .decide 3 2 1).srch.lastCollision < (searching .decide 3 2 1).srch.bit :=
  ⟨fun _ _ _ _ => ⟨rfl, rfl, rfl, rfl⟩, by decide⟩
/-- The current slot past the window and the previous one in it (V-S8); then both past it. -/
theorem witness_SearchDecideAction_faults :
    (inWindow { Params.reference with window := [⟨0x100, 8⟩] } (0x100 + 8 * 1 + 0) = false
      ∧ inWindow { Params.reference with window := [⟨0x100, 8⟩] } (0x100 + 8 * 0 + 0) = true)
    ∧ inWindow { Params.reference with window := [⟨0x200, 8⟩] } (0x100 + 8 * 0 + 0) = false := by decide
theorem witness_SearchDecideAction_timeout : ∃ (x : Slots) (n : Nat),
    (inFlight 105 (searching .decide 1 0 0)).sub.busy = true
    ∧ x = Config.timedOutRx (inFlight 105 (searching .decide 1 0 0)).draws
    ∧ n = (inFlight 105 (searching .decide 1 0 0)).draws + 1 := ⟨_, _, rfl, rfl, rfl⟩
/-- A step that goes on and one that ends the search. -/
theorem witness_SearchEndsWithItsCount :
    (match searchStep (searching .pairStart 1 0 0) with
      | .ok t => t.ctx.owner == .search | .error _ => false) = true
    ∧ (match searchStep (searching .writeWait 64 0 1) with
      | .ok t => t.ctx.owner == .idle && result t .ok 2 | .error _ => false) = true := by decide

/-- A search state with the invariant, in any phase past the command. -/
theorem searching_inv (ph : Phase) (bit : BitVec 7) (h : ph ≠ .idle) (hb : 1 ≤ bit) (hm : bit ≤ 64) :
    Inv (searching ph bit 2 1) where
  params := show Params.reference.wf = true by decide
  memory := show Memory.wf [] by decide
  control := by constructor <;> simp_all [searching, s0, Ctx.powerOn]
  ranges := by constructor <;> simp_all [searching, s0, Ctx.powerOn, Params.reference]
  bus := by constructor <;> simp [searching, s0, Ctx.powerOn]

theorem witness_SearchStepCompletes : Inv (searching .decide 64 2 1)
    ∧ (searching .decide 64 2 1).ctx.owner = .search
    ∧ inWindow Params.reference (0x100 + 8 * 1 + (64 - 1) / 8) = true :=
  ⟨searching_inv _ _ (by decide) (by decide) (by decide), by decide, by decide⟩
theorem witness_SearchWritesOnlyItsSlot : Inv (searching .decide 64 2 1)
    ∧ (searching .decide 64 2 1).ctx.owner = .search
    ∧ (match searchStep (searching .decide 64 2 1) with
      | .ok t => t.ctx.owner == .search | .error _ => false) = true :=
  ⟨searching_inv _ _ (by decide) (by decide) (by decide), by decide, by decide⟩
/-- A device whose 64 bits are all 0, its slot at the top of the address space. -/
theorem witness_OneDevicePassRecordsItsRom :
    let s := searching .pairStart 1 2 1
    let zero : Slots := #v[0, 0xFF, 0, 0, 0, 0, 0, 0]
    Inv s ∧ s.fault = none ∧ s.ctx.owner = .search ∧ s.srch.phase = .pairStart ∧ s.srch.bit = 1
    ∧ s.srch.currentCollision = 0 ∧ agreedPair s.cfg false zero
    ∧ (List.replicate 64 zero).length = 64
    ∧ Accessible s.cfg (s.srch.out + 8 * s.srch.found.toNat) 8 :=
  ⟨searching_inv _ _ (by decide) (by decide) (by decide), by decide, by decide, by decide, by decide,
    by decide, by unfold agreedPair; decide, by decide, by decide⟩
/-- Both clauses at the end of the address space. -/
theorem witness_Crc8Request : HostReady s0 ∧ Accessible s0.cfg 0xFFFF 1 ∧ Accessible s0.cfg 0xFFFE 2
    ∧ inWindow s0.cfg (0xFFFE + 2) = false := by decide
theorem witness_Crc16Request :
    HostReady { s0 with cfg := { Params.reference with featureCrc16 := false } } ∧ HostReady s0 ∧ s0.cfg.featureCrc16 = true ∧ Accessible s0.cfg 0xFFFF 1
    ∧ inWindow s0.cfg (0xFFFF + 1) = false := by decide
/-- Match and mismatch, and a fault at each inverted byte. -/
theorem witness_CheckCrc16Request : HostReady (withBytes 0 [0x0F, 0, 0, 0xCF, 0xFC])
    ∧ (withBytes 0 [0x0F, 0, 0, 0xCF, 0xFC]).cfg.featureCrc16 = true
    ∧ (let c := ~~~ crc16 Params.reference [0x0F, 0, 0] 0
       c.extractLsb' 0 8 = 0xCF ∧ c.extractLsb' 8 8 = 0xFC)
    ∧ Accessible s0.cfg 3 2 ∧ Accessible s0.cfg 0xFFFF 1 ∧ inWindow s0.cfg (0xFFFF + 1) = false
    ∧ inWindow s0.cfg (0x10000 + 0) = false := by decide
theorem witness_RomCodeCheckIsZeroRemainder : Params.reference.crc8Poly = 0x8C := by decide
/-- The first and the last bit of a byte. -/
theorem witness_SingleBitFlipIsDetected :
    Params.reference.crc8Poly = 0x8C ∧ Params.reference.crc16Poly = 0xA001 ∧ 0 < 8 ∧ 7 < 8
    ∧ checkCrc16 Params.reference [0x0F, 0, 0] 0xCF 0xFC 0 = true
    ∧ checkCrc16 Params.reference [0x0E, 0, 0] 0xCF 0xFC 0 = false := by decide
/-- A forbidden and an allowed cell of each row that has both. -/
theorem witness_OwnershipTable :
    (HostReady (sending .setup 0 0 0 0 0) ∧ (Instr.reset).opcode = 0x02
      ∧ (sending .setup 0 0 0 0 0).ctx.owner = .transfer)
    ∧ (HostReady (resetting .await 1 0) ∧ (Instr.send 0 0 0 0 0).opcode = 0x03
      ∧ (resetting .await 1 0).ctx.owner = .reset)
    ∧ legalOp Params.reference (Instr.search 0 0).opcode = true ∧ HostReady s0 := by decide
theorem witness_ClearReturnsTheContextToIdle : HostReady (sending .consume 3 2 9 4 5) := by decide
/-- A request that answers and one that faults. -/
theorem witness_StepRunsTheDecodedRequest :
    HostReady (s0.setEnv [.request 5]) ∧ decode Params.reference 5 = .ok (.crc8 0 0)
    ∧ next (exec (.crc8 0 0) s0) (fun t => result t .ok 0) = true
    ∧ decode Params.reference 2 = .ok .reset
    ∧ faults (exec .reset (sending .setup 0 0 0 0 0)) (.overlap 2 .transfer) = true := by decide
theorem witness_FaultingStepOnlyRecordsTheFault :
    next (step (s0.setEnv [.request 0])) (fun t => t.fault == some (.illegalOp 0)) = true := by decide
theorem witness_RecordedFaultIsTerminal :
    (s0.setFault (some (.memRange 0x10000 .write))).fault = some (.memRange 0x10000 .write) := by decide
/-- With only host actions pending; a search step that goes on, and one that faults. -/
theorem witness_HostIsBlockedDuringSearch :
    (searching .pairStart 1 0 0).fault = none ∧ (searching .pairStart 1 0 0).ctx.owner = .search
    ∧ (match searchStep { searching .decide 1 0 0 with
          cfg := { Params.reference with window := [] } } with
      | .ok _ => false | .error r => r == .memRange 0x100 .read) = true := by decide
theorem witness_SubstrateAndClockSteps :
    ({ s0 with sub := ⟨true, 8, 8, .transfer⟩, env := [.complete (slots 1)] } : State).sub.busy = true
    ∧ (s0.setEnv [.tick 0xFFFFFFFF]).fault = none := by decide
theorem witness_StatelessRequestsTouchNoRegister :
    (0x05 : Byte) ≤ (Instr.crc8 0 0).opcode
    ∧ next (exec (.encode 1 0x300) (resetting .await 4 0)) (fun t => t.ctx.owner == .reset) = true
    ∧ HostReady (sending .await 0 0 0 0 0) := by decide
theorem witness_CoreNeverWritesTheReceiveBuffer :
    next (exec (.send 0 0 0 0 0) (sending .writeByte 0 1 0 0 0)) (fun t => t.ctx.rx == slots 0x22) = true
    ∧ (match searchStep (searching .pairStart 1 0 0) with
      | .ok t => t.ctx.rx == slots 0x22 | .error _ => false) = true := by decide
theorem witness_StepKeepsTheParameters :
    next (step (s0.setEnv [.tick 1])) (fun t => t.now == 101) = true := by decide
theorem witness_StepKeepsTheInvariant : Inv (searching .pairStart 1 2 1)
    ∧ next (step (searching .pairStart 1 2 1)) (fun t => t.srch.phase == .pairWait) = true :=
  ⟨searching_inv _ _ (by decide) (by decide) (by decide), by decide⟩

end Sys2Proof.Tests
end

section
/-! SUPPORT. Proofs about the state (10_state.md): what an instruction, a search step and a transition can
do, the registers none of them writes, and the invariant every step keeps. -/

namespace Sys2Proof

/-! ## The decoder's operands -/

/-- Every field of an unpacked record is within its width (R91, R92). -/
theorem unpack_fits (p : Params) (w : Nat) : (unpack p w).fits p = true := by
  have hlt (lo n : Nat) : bitField w lo n < 2 ^ n := Nat.mod_lt _ (Nat.two_pow_pos n)
  simp [Req.fits, Params.addrFits, Params.lenFits, unpack, hlt]

/-- A record that fits is decoded into operands that fit (R93). -/
theorem decodeReq_wf {p : Params} {r : Req} {i : Instr} (hr : r.fits p = true)
    (h : decodeReq r = .ok i) : i.wf p = true := by
  simp only [Req.fits, Bool.and_eq_true] at hr
  obtain ⟨⟨⟨ha, hla⟩, hb⟩, hlb⟩ := hr
  unfold decodeReq at h
  split at h <;> cases h <;> simp [Instr.wf, ha, hla, hb, hlb]

theorem decode_wf {p : Params} {w : Nat} {i : Instr} (h : decode p w = .ok i) : i.wf p = true :=
  decodeReq_wf (unpack_fits p w) h

end Sys2Proof

namespace Sys2Proof.Machine

/-! ## What an instruction can do -/

/-- The states an instruction can lead to (45_control.md R270, R271): one case for each operation that
moves a register, and one for the stateless operations, which write memory at most. -/
inductive ExecEffect (s : State) : Instr → State → Prop
  | clear : ExecEffect s .clear (deliver .ok 0 ((s.setCtx (clearCtx s.ctx)).setSrch Srch.clear))
  | reset (howner : s.ctx.owner = .idle ∨ s.ctx.owner = .reset) :
      ExecEffect s .reset
        (endPoll (resetStep (setOwner .reset s)).1 (resetStep (setOwner .reset s)).2)
  | send {a la b lb : Nat} {skip : Byte} {st : Status} {u : State}
      (howner : s.ctx.owner = .idle ∨ s.ctx.owner = .transfer)
      (hstep : transferStep ⟨.host, a, la, b, lb, skip⟩ (setOwner .transfer s) = .ok (st, u)) :
      ExecEffect s (.send a la b lb skip) (endPoll st u)
  | search {a : Nat} {max : Byte} (howner : s.ctx.owner = .idle) :
      ExecEffect s (.search a max)
        (((setOwner .search s).setSrch ⟨.pass, a, max, 0, 0, 0, 0⟩).setResult none)
  | stateless {i : Instr} (a : Nat) (bs : List Byte) (v : Half) :
      ExecEffect s i (deliver .ok v (s.setMem (writeAll s.mem a bs)))

/-- An operation that reads memory and delivers a value writes no byte. -/
theorem ExecEffect.readOnly {s : State} {i : Instr} (v : Half) : ExecEffect s i (deliver .ok v s) :=
  .stateless 0 [] v

/-- Everything an instruction can do. -/
theorem exec_effect {i : Instr} {s t : State} (h : exec i s = .next t) : ExecEffect s i t := by
  cases i with
  | clear =>
    obtain ⟨-, -, -, -, hb⟩ := hostStep_eq_next.1 h
    cases hb
    exact .clear
  | reset =>
    obtain ⟨-, -, -, howner, hb⟩ := hostStep_eq_next.1 h
    cases hb
    exact .reset (by simpa using howner)
  | send a la b lb skip =>
    obtain ⟨-, -, -, howner, hb⟩ := hostStep_eq_next.1 h
    obtain ⟨r, hr, hb⟩ := bind_eq_ok.1 hb
    cases hb
    exact .send (by simpa using howner) hr
  | search a max =>
    obtain ⟨-, -, -, howner, hb⟩ := hostStep_eq_next.1 h
    cases hb
    exact .search (by simpa using howner)
  | crc8 | crc16 | decode =>
    obtain ⟨-, -, -, -, hb⟩ := hostStep_eq_next.1 h
    obtain ⟨_, -, hb⟩ := bind_eq_ok.1 hb
    cases hb
    exact .readOnly _
  | checkCrc16 a la b seed =>
    obtain ⟨-, -, -, -, hb⟩ := hostStep_eq_next.1 h
    simp only [bind_eq_ok] at hb
    obtain ⟨_, -, _, -, _, -, hb⟩ := hb
    cases hb
    exact .readOnly _
  | encode v a =>
    obtain ⟨-, -, -, -, hb⟩ := hostStep_eq_next.1 h
    obtain ⟨u, hu, hb⟩ := bind_eq_ok.1 hb
    obtain ⟨-, rfl⟩ := writeBytes_eq_ok.1 hu
    cases hb
    exact .stateless _ _ _

/-! ## What a search phase can do -/

/-- Everything phase `S_PASS` can do (R201): end for want of room, or take a transfer step and go on, end
for want of a device, or begin the bit positions. -/
theorem searchPass_cases {s t : State} (h : searchPass s = .ok t) :
    (s.srch.max ≤ s.srch.found ∧ t = terminate s.srch.found s)
    ∨ (s.srch.found < s.srch.max ∧ ∃ st u, transferStep (searchArgs s.cfg) s = .ok (st, u)
        ∧ ((st = .wait ∧ t = u)
          ∨ (st = .noDevice ∧ t = terminate u.srch.found u)
          ∨ (st = .ok ∧ t = u.setSrch
              { u.srch with currentCollision := 0, bit := 1, phase := .pairStart }))) := by
  unfold searchPass at h
  split_ifs at h with hroom
  · exact .inl ⟨hroom, by cases h; rfl⟩
  · obtain ⟨⟨st, u⟩, hstep, h⟩ := bind_eq_ok.1 h
    refine .inr ⟨BitVec.not_le.1 hroom, st, u, hstep, ?_⟩
    cases st <;> cases h
    · exact .inl ⟨rfl, rfl⟩
    · exact .inr (.inr ⟨rfl, rfl⟩)
    · exact .inr (.inl ⟨rfl, rfl⟩)

/-- Everything phase `S_PAIR_WAIT` can do (R203). -/
theorem searchPairWait_cases (s : State) :
    searchPairWait s = s ∨ searchPairWait s = s.setSrch { s.srch with phase := .decide } := by
  unfold searchPairWait
  split
  · exact .inr rfl
  · exact .inl rfl

/-- Everything phase `S_WRITE_WAIT` can do (R208): wait, take the next position, or finish the slot and
then end the search or begin the next pass. -/
theorem searchWriteWait_cases (s : State) :
    searchWriteWait s = s
    ∨ (s.srch.bit < 64 ∧ searchWriteWait s =
        s.setSrch { s.srch with bit := s.srch.bit + 1, phase := .pairStart })
    ∨ searchWriteWait s = terminate (s.srch.found + 1)
        (s.setSrch { s.srch with found := s.srch.found + 1 })
    ∨ (s.srch.currentCollision ≠ 0 ∧ searchWriteWait s = s.setSrch { s.srch with
        found := s.srch.found + 1, lastCollision := s.srch.currentCollision, bit := 0
        phase := .pass }) := by
  unfold searchWriteWait
  split_ifs with hwait hbit
  · exact .inl rfl
  · exact .inr (.inl ⟨hbit, rfl⟩)
  · by_cases hcoll : s.srch.currentCollision = 0
    · exact .inr (.inr (.inl (if_pos hcoll)))
    · exact .inr (.inr (.inr ⟨hcoll, if_neg hcoll⟩))

/-! ## What a transition can do -/

/-- The transitions of the system from a state whose pending actions are already the ones left over
(R273, R274): one case for each agent, one for a recorded fault, one for no agent moving. -/
inductive Transition (s : State) : State → Prop
  | request {w : Nat} {i : Instr} {t : State} (hdecode : decode s.cfg w = .ok i)
      (hexec : exec i s = .next t) : Transition s t
  | hostWrite (a : Nat) (v : Byte) : Transition s (s.setMem (s.mem.write a v))
  | core {t : State} (hsearch : searchStep s = .ok t) : Transition s t
  | complete (b : Slots) : Transition s (subComplete b s)
  | tick (ms : Millis) : Transition s (clockAdvance ms s)
  | fault (r : Fault) : Transition s (recordFault r s)
  | stay : Transition s s

/-- A request is its decoded operation's own step, or a recorded fault (R270). -/
theorem commit_runRequest {w : Nat} {s t : State} (h : commit s (runRequest w s) = .next t) :
    Transition s t := by
  obtain h | ⟨r, -, rfl⟩ := commit_eq_next.1 h
  · unfold runRequest at h
    split at h
    · next i hdecode => exact .request hdecode h
    · cases h
  · exact .fault r

/-- A step of the core is a search step, or a recorded fault (R200). -/
theorem commit_searchStep {s t : State} (h : commit s (outcomeOf (searchStep s)) = .next t) :
    Transition s t := by
  obtain h | ⟨r, -, rfl⟩ := commit_eq_next.1 h
  · exact .core (outcomeOf_eq_next.1 h)
  · exact .fault r

theorem runEvent_transition {e : Event} {s t : State} (h : runEvent e s = .next t) :
    Transition s t := by
  cases e with
  | request w => exact commit_runRequest h
  | hostWrite a v => cases h; exact .hostWrite a v
  | core => exact commit_searchStep h
  | complete b => cases h; exact .complete b
  | tick ms => cases h; exact .tick ms

/-- A step takes an action off the pending ones, or none, and makes one transition. -/
theorem step_transition {s t : State} (h : step s = .next t) :
    ∃ es, Transition (s.setEnv es) t := by
  obtain ⟨-, ⟨e, es, -, h⟩ | ⟨-, h⟩ | ⟨-, rfl⟩⟩ := step_cases h
  · exact ⟨es, runEvent_transition h⟩
  · exact ⟨s.env, commit_searchStep h⟩
  · exact ⟨t.env, .stay⟩

/-! ## The parameters and the receive buffer (R46, R32) -/

@[simp] theorem terminate_cfg (n : Byte) (s : State) : (terminate n s).cfg = s.cfg := rfl
@[simp] theorem terminate_ctx (n : Byte) (s : State) :
    (terminate n s).ctx = { s.ctx with owner := .idle } := rfl

@[simp] theorem setOwner_cfg (o : Owner) (s : State) : (setOwner o s).cfg = s.cfg := rfl
@[simp] theorem setOwner_srch (o : Owner) (s : State) : (setOwner o s).srch = s.srch := rfl
@[simp] theorem setOwner_ctx (o : Owner) (s : State) :
    (setOwner o s).ctx = { s.ctx with owner := o } := rfl

/-- A final status gives the context back (R146, R175). -/
theorem endPoll_final {st : Status} (h : st ≠ .wait) (s : State) :
    endPoll st s = deliver st 0 (setOwner .idle s) := by
  unfold endPoll
  rw [if_neg h]

@[simp] theorem endPoll_cfg (st : Status) (s : State) : (endPoll st s).cfg = s.cfg := by
  cases st <;> rfl
@[simp] theorem endPoll_rx (st : Status) (s : State) : (endPoll st s).ctx.rx = s.ctx.rx := by
  cases st <;> rfl

/-- No instruction changes a parameter or the receive buffer. -/
theorem ExecEffect.cfg_rx {s t : State} {i : Instr} (h : ExecEffect s i t) :
    t.cfg = s.cfg ∧ t.ctx.rx = s.ctx.rx := by
  cases h with
  | clear => exact ⟨rfl, rfl⟩
  | reset => simp
  | send _ hstep =>
    obtain ⟨hcfg, -, -, -, -, -, -, hrx⟩ := transferStep_frame hstep
    exact ⟨(endPoll_cfg _ _).trans hcfg, (endPoll_rx _ _).trans hrx⟩
  | search | stateless => exact ⟨rfl, rfl⟩

theorem searchPass_cfg_rx {s t : State} (h : searchPass s = .ok t) :
    t.cfg = s.cfg ∧ t.ctx.rx = s.ctx.rx := by
  obtain ⟨-, rfl⟩ | ⟨-, st, u, hstep, hend⟩ := searchPass_cases h
  · exact ⟨rfl, rfl⟩
  · obtain ⟨hcfg, -, -, -, -, -, -, hrx⟩ := transferStep_frame hstep
    obtain ⟨-, rfl⟩ | ⟨-, rfl⟩ | ⟨-, rfl⟩ := hend <;> exact ⟨hcfg, hrx⟩

theorem searchDecide_cfg_rx {s t : State} (h : searchDecide s = .ok t) :
    t.cfg = s.cfg ∧ t.ctx.rx = s.ctx.rx := by
  obtain rfl | ⟨sel, u, hsel, rfl | rfl⟩ := searchDecide_cases h
  · simp
  · obtain ⟨-, rfl⟩ := searchSelect_eq_ok.1 hsel; simp
  · obtain ⟨-, rfl⟩ := searchSelect_eq_ok.1 hsel; simp

theorem searchWriteWait_cfg_rx (s : State) :
    (searchWriteWait s).cfg = s.cfg ∧ (searchWriteWait s).ctx.rx = s.ctx.rx := by
  obtain h | ⟨-, h⟩ | h | ⟨-, h⟩ := searchWriteWait_cases s <;> simp [h]

/-- No search step changes a parameter or the receive buffer. -/
theorem searchStep_cfg_rx {s t : State} (h : searchStep s = .ok t) :
    t.cfg = s.cfg ∧ t.ctx.rx = s.ctx.rx := by
  unfold searchStep at h
  split at h
  · cases h; exact ⟨rfl, rfl⟩
  · exact searchPass_cfg_rx h
  · cases h; exact ⟨rfl, rfl⟩
  · cases h
    obtain heq | heq := searchPairWait_cases s <;> simp [heq]
  · exact searchDecide_cfg_rx h
  · cases h; exact searchWriteWait_cfg_rx s

/-- Settles O55: the registers an instruction or a search step writes do not include `ctx.rx`. -/
theorem coreNeverWritesTheReceiveBuffer : Obligations.CoreNeverWritesTheReceiveBuffer :=
  ⟨fun _ _ _ h => (exec_effect h).cfg_rx.2, fun _ _ h => (searchStep_cfg_rx h).2⟩

/-- No transition of any agent changes a parameter. -/
theorem Transition.cfg_eq {s t : State} (h : Transition s t) : t.cfg = s.cfg := by
  cases h with
  | request _ hexec => exact (exec_effect hexec).cfg_rx.1
  | core hsearch => exact (searchStep_cfg_rx hsearch).1
  | hostWrite | complete | tick | fault | stay => rfl

/-- Settles O56: each agent's transition keeps the parameters. -/
theorem stepKeepsTheParameters : Obligations.StepKeepsTheParameters := by
  intro s t h
  obtain ⟨es, htrans⟩ := step_transition h
  exact htrans.cfg_eq

/-! ## The invariant at power-on -/

@[simp] theorem word_zero_le {w : Nat} (x : BitVec w) : 0#w ≤ x := by
  simp [BitVec.le_def]

theorem Control.cleared (c : Ctx) : Control (clearCtx c) Srch.clear := by
  constructor <;> simp [clearCtx, Srch.clear]

theorem Ranges.cleared (p : Params) (c : Ctx) : Ranges p (clearCtx c) Srch.clear := by
  constructor <;> simp [clearCtx, Srch.clear]

/-- Settles O58: at power-on the context and search registers are those of a clear, the substrate is idle
at the reset rate, and memory is empty. -/
theorem powerOnMeetsTheInvariant : Obligations.PowerOnMeetsTheInvariant where
  params := show Params.reference.wf = true by decide
  memory := Memory.wf_reset
  control := Control.cleared Ctx.powerOn
  ranges := Ranges.cleared Params.reference Ctx.powerOn
  bus := by constructor <;> simp [State.reset, Ctx.powerOn, Srch.clear, Sub.powerOn]

/-! ## Updates that keep the invariant

One lemma for each kind of register update; the machines' steps below are compositions of these. -/

/-- The invariant speaks of the parameters, memory, the registers and the substrate only. -/
theorem Inv.congr {s t : State} (h : Inv s) (hcfg : t.cfg = s.cfg) (hmem : t.mem = s.mem)
    (hctx : t.ctx = s.ctx) (hsrch : t.srch = s.srch) (hsub : t.sub = s.sub) : Inv t where
  params := hcfg ▸ h.params
  memory := hmem ▸ h.memory
  control := hctx ▸ hsrch ▸ h.control
  ranges := hcfg ▸ hctx ▸ hsrch ▸ h.ranges
  bus := hctx ▸ hsrch ▸ hsub ▸ h.bus

theorem rxDrawn_setCtx (s : State) (c : Ctx) : rxDrawn (s.setCtx c) = (rxDrawn s).setCtx c :=
  (apply_ite (State.setCtx · c) (s.sub.busy = true) (s.setDraws (s.draws + 1)) s).symm

theorem Inv.rxDrawn {s : State} (h : Inv s) : Inv (rxDrawn s) :=
  h.congr (rxDrawn_cfg s) (rxDrawn_mem s) (rxDrawn_ctx s) (rxDrawn_srch s) (rxDrawn_sub s)

theorem Inv.setMem {s : State} (h : Inv s) {m : Memory} (hm : Memory.wf m) : Inv (s.setMem m) :=
  ⟨h.params, hm, h.control, h.ranges, h.bus⟩

/-- Starting an exchange of at most eight bytes (R76), with the transmit buffer rewritten. -/
theorem Inv.exchange {s : State} (h : Inv s) {n : Nat} (hn : n ≤ 8) (x : Slots) :
    Inv (exchStart n (s.setCtx { s.ctx with tx := x })) where
  params := h.params
  memory := h.memory
  control := { h.control with }
  ranges := { h.ranges with }
  bus := { h.bus with armed := ⟨hn, nofun⟩ }

theorem Inv.subComplete {s : State} (h : Inv s) (b : Slots) : Inv (subComplete b s) where
  params := h.params
  memory := h.memory
  control := { h.control with }
  ranges := { h.ranges with }
  bus := { h.bus with armed := ⟨Nat.zero_le 8, fun _ => rfl⟩ }

theorem Inv.clear {s : State} (h : Inv s) : Inv ((s.setCtx (clearCtx s.ctx)).setSrch Srch.clear) where
  params := h.params
  memory := h.memory
  control := Control.cleared s.ctx
  ranges := Ranges.cleared s.cfg s.ctx
  bus := { h.bus with
    resetRate := fun hn => absurd rfl hn
    transferRate := by simp [clearCtx, Srch.clear] }

/-- Giving the context back, and with it the search phase: both machines must be at rest (R42 (a)). -/
theorem Inv.release {s : State} (h : Inv s) (hreset : s.ctx.resetState = .init)
    (htransfer : s.ctx.transferState = .setup) :
    Inv (setOwner .idle (s.setSrch { s.srch with phase := .idle })) where
  params := h.params
  memory := h.memory
  control := by constructor <;> simp [hreset, htransfer]
  ranges := { h.ranges with collisionFound := fun hn => absurd rfl hn }
  bus := { h.bus with transferRate := by simp [htransfer] }

theorem Inv.terminate {s : State} (h : Inv s) (hreset : s.ctx.resetState = .init)
    (htransfer : s.ctx.transferState = .setup) (n : Byte) : Inv (terminate n s) :=
  (h.release hreset htransfer).congr rfl rfl rfl rfl rfl

/-! ## Who may step the reset and transfer machines -/

/-- An operation that runs the reset or the transfer machine holds the context: a reset or a send, with no
search under way, or a search in a pass that has room. -/
structure Polling (o : Owner) (q : Srch) : Prop where
  held : o ≠ .idle
  request : o ≠ .search → q.phase = .idle
  pass : o = .search → q.phase = .pass ∧ q.found < q.max

theorem Polling.not_pairing {o : Owner} {q : Srch} (h : Polling o q) (hi : q.phase ≠ .idle)
    (hp : q.phase ≠ .pass) : False :=
  (em (o = .search)).elim (fun ho => hp (h.pass ho).1) (fun ho => hi (h.request ho))

theorem Polling.search_of_pass {o : Owner} {q : Srch} (h : Polling o q) (hp : q.phase = .pass) :
    o = .search ∧ q.found < q.max := by
  have ho : o = .search := by_contra fun hn => by simp [h.request hn] at hp
  exact ⟨ho, (h.pass ho).2⟩

/-- With the transfer machine at `SETUP`, the reset machine may be in any state. -/
theorem Polling.control {c : Ctx} {q : Srch} (h : Polling c.owner q)
    (hsetup : c.transferState = .setup) : Control c q where
  idle ho := absurd ho h.held
  resetting ho := ⟨hsetup, h.request (by simp [ho])⟩
  transferring ho := h.request (by simp [ho])
  resetInSetup _ := hsetup
  searching ho := by simp [(h.pass ho).1]
  pairing hi hp := (h.not_pairing hi hp).elim
  passing hp := .inr (h.search_of_pass hp).2
  passCommand _ hn := absurd hsetup hn

/-- A reset request takes the context, or has it already (R271); the transfer machine is at rest. -/
theorem Inv.takeReset {s : State} (h : Inv s)
    (howner : s.ctx.owner = .idle ∨ s.ctx.owner = .reset) :
    Inv (setOwner .reset s) ∧ Polling .reset s.srch ∧ s.ctx.transferState = .setup := by
  obtain ⟨hsetup, hphase⟩ : s.ctx.transferState = .setup ∧ s.srch.phase = .idle :=
    howner.elim (fun ho => (h.control.idle ho).2) h.control.resetting
  have hp : Polling .reset s.srch := ⟨nofun, fun _ => hphase, nofun⟩
  exact ⟨⟨h.params, h.memory, hp.control hsetup, { h.ranges with }, { h.bus with }⟩, hp, hsetup⟩

/-- A send request takes the context, or has it already (R271). -/
theorem Inv.takeTransfer {s : State} (h : Inv s)
    (howner : s.ctx.owner = .idle ∨ s.ctx.owner = .transfer) :
    Inv (setOwner .transfer s) ∧ Polling .transfer s.srch := by
  have hphase : s.srch.phase = .idle :=
    howner.elim (fun ho => (h.control.idle ho).2.2) h.control.transferring
  have hcontrol : Control { s.ctx with owner := .transfer } s.srch :=
    { h.control with idle := nofun, resetting := nofun, transferring := fun _ => hphase, searching := nofun }
  exact ⟨⟨h.params, h.memory, hcontrol, { h.ranges with }, { h.bus with }⟩, nofun, fun _ => hphase, nofun⟩

/-- A search request takes the idle context and starts in `S_PASS` (R200). -/
theorem Inv.takeSearch {s : State} (h : Inv s) (howner : s.ctx.owner = .idle) {a : Nat}
    (ha : a < 2 ^ s.cfg.addrW) (max : Byte) :
    Inv ((setOwner .search s).setSrch ⟨.pass, a, max, 0, 0, 0, 0⟩) := by
  obtain ⟨hreset, hsetup, -⟩ := h.control.idle howner
  exact {
    params := h.params
    memory := h.memory
    control := by constructor <;> simp [hreset, hsetup]
    ranges := { h.ranges with
      found := word_zero_le _
      bit := word_zero_le _
      collisions := ⟨word_zero_le _, word_zero_le _⟩
      collisionFound := fun _ hn => absurd rfl hn
      out := ha }
    bus := { h.bus with transferRate := by simp [hsetup] } }

/-- A polled step that answers a final status leaves both machines at rest, and gives the context back. -/
theorem Inv.endPoll {s : State} (h : Inv s) {st : Status} (hphase : s.srch.phase = .idle)
    (hrest : st ≠ .wait → s.ctx.resetState = .init ∧ s.ctx.transferState = .setup) :
    Inv (endPoll st s) := by
  have hsame : s.setSrch { s.srch with phase := .idle } = s := by rw [← hphase]; rfl
  by_cases hst : st = .wait
  · subst hst
    exact h.congr rfl rfl rfl rfl rfl
  · obtain ⟨hreset, htransfer⟩ := hrest hst
    have hreleased := h.release hreset htransfer
    rw [hsame] at hreleased
    rw [endPoll_final hst]
    exact hreleased.congr rfl rfl rfl rfl rfl

/-! ## The reset machine keeps the invariant -/

/-- A bus rate, with its shadow (R34, R75): the reset machine's pulse states need the reset rate. -/
theorem Inv.reconfigure {s : State} (h : Inv s) (hp : Polling s.ctx.owner s.srch)
    (hsetup : s.ctx.transferState = .setup) {r : Rate} (hr : s.ctx.resetState ≠ .init → r = .reset) :
    Inv (reconfigure r s) where
  params := h.params
  memory := h.memory
  control := { h.control with }
  ranges := { h.ranges with }
  bus :=
    { armed := h.bus.armed
      baud := rfl
      resetRate := hr
      transferRate := fun hn =>
        (hn.elim (fun ht => ht hsetup) (fun hq => hp.not_pairing hq.1 hq.2)).elim }

/-- A move of the reset machine: the budget stays in its range and counts an attempt under way (R25), and
outside `INIT` the bus is at the reset rate (R149). -/
theorem Inv.setResetState {s : State} (h : Inv s) (hp : Polling s.ctx.owner s.srch)
    (hsetup : s.ctx.transferState = .setup) {b : Byte} {x : ResetState}
    (hb : b ≤ s.cfg.resetAttempts) (hleft : x ≠ .init → x ≠ .finalize → 1 ≤ b)
    (hrate : x ≠ .init → s.ctx.baud = .reset) :
    Inv (s.setCtx { s.ctx with resetRetryBudget := b, resetState := x }) where
  params := h.params
  memory := h.memory
  control := Polling.control hp hsetup
  ranges := { h.ranges with budget := hb, budgetLeft := hleft }
  bus := { h.bus with resetRate := hrate }

theorem one_le_resetAttempts {p : Params} (h : p.wf = true) : 1 ≤ p.resetAttempts := by
  simp only [Params.wf, Bool.and_eq_true, decide_eq_true_eq] at h
  exact h.1

theorem eight_le_lenW {p : Params} (h : p.wf = true) : 8 ≤ p.lenW := by
  simp only [Params.wf, Bool.and_eq_true, decide_eq_true_eq] at h
  exact h.2

/-- A failed attempt leaves a budget of at least 1 when more than one was left (R144). -/
theorem budget_pred {b m : Byte} (hb : b ≤ m) (h1 : 1 < b) : b - 1 ≤ m ∧ 1 ≤ b - 1 := by
  constructor <;> bv_omega

/-- Every state's action keeps the invariant, for whichever operation steps the machine. -/
theorem Inv.resetStep {s : State} (h : Inv s) (hp : Polling s.ctx.owner s.srch)
    (hsetup : s.ctx.transferState = .setup) : Inv (resetStep s).2 := by
  have hrate (hn : s.ctx.resetState ≠ .init) : s.ctx.baud = .reset := h.bus.resetRate hn
  obtain ⟨hst, heq⟩ | ⟨hst, heq⟩ | ⟨hst, -, heq⟩ | ⟨hst, -, heq⟩ | ⟨hst, -, heq⟩ | ⟨hst, -, hmore, heq⟩ |
    ⟨hst, -, -, heq⟩ | ⟨hst, heq⟩ := resetStep_cases s <;> rw [heq]
  · have hinit := h.reconfigure hp hsetup (r := .reset) fun _ => rfl
    exact hinit.setResetState hp hsetup (BitVec.le_refl _)
      (fun _ _ => one_le_resetAttempts h.params) fun _ => rfl
  · have hpulse := h.exchange (n := 1) (by decide) (s.ctx.tx.set 0 s.cfg.resetByte)
    exact hpulse.setResetState hp hsetup h.ranges.budget
      (fun _ _ => h.ranges.budgetLeft (by simp [hst]) (by simp [hst]))
      fun _ => hrate (by simp [hst])
  · exact h
  · exact h.setResetState hp hsetup h.ranges.budget
      (fun _ _ => h.ranges.budgetLeft (by simp [hst]) (by simp [hst])) fun _ => hrate (by simp [hst])
  · rw [← rxDrawn_setCtx]
    exact (h.setResetState hp hsetup h.ranges.budget (x := .finalize) (fun _ hn => absurd rfl hn)
      fun _ => hrate (by simp [hst])).rxDrawn
  · obtain ⟨hle, hone⟩ := budget_pred h.ranges.budget hmore
    rw [← rxDrawn_setCtx]
    exact (h.setResetState hp hsetup hle (fun _ _ => hone) fun _ => hrate (by simp [hst])).rxDrawn
  · rw [← rxDrawn_setCtx]
    exact (h.setResetState hp hsetup (word_zero_le _) (x := .finalize) (fun _ hn => absurd rfl hn)
      fun _ => hrate (by simp [hst])).rxDrawn
  · have hinit := h.setResetState hp hsetup (x := .init) h.ranges.budget (fun hn => absurd rfl hn)
      fun hn => absurd rfl hn
    exact hinit.reconfigure hp hsetup fun hn => absurd rfl hn

/-! ## The transfer machine keeps the invariant -/

/-- The arguments a transfer takes for the owner `o`: a request's operands fit their fields (R91), and a
search sends its one constant byte and has no data buffer (R201). -/
structure TransferArgs.Fits (p : Params) (o : Owner) (args : TransferArgs) : Prop where
  cursors : args.cmdAddr ≤ 2 ^ p.addrW ∧ args.dataAddr ≤ 2 ^ p.addrW
  counters : args.cmdLen < 2 ^ p.lenW ∧ args.dataLen < 2 ^ p.lenW
  const : args.src = .searchConst → args.cmdAddr + args.cmdLen ≤ 1
  search : o = .search → args.src = .searchConst ∧ args.dataLen = 0

/-- The snapshot that ends `SETUP` (R171), taken when the reset is over and the bus at the transfer rate. -/
theorem Inv.transferSnapshot {s : State} (h : Inv s) (hp : Polling s.ctx.owner s.srch)
    (howner : s.ctx.owner ≠ .reset) {args : TransferArgs} (hargs : args.Fits s.cfg s.ctx.owner)
    (hreset : s.ctx.resetState = .init) (hbaud : s.ctx.baud = .transfer) :
    Inv (transferSnapshot args s) where
  params := h.params
  memory := h.memory
  control := { h.control with
    idle := fun ho => absurd ho hp.held
    resetting := fun ho => absurd ho howner
    resetInSetup := fun hn => absurd hreset hn
    pairing := fun hi hq => (hp.not_pairing hi hq).elim
    passing := fun hq => .inr (hp.search_of_pass hq).2
    passCommand := fun hq _ => hargs.search (hp.search_of_pass hq).1 }
  ranges := { h.ranges with
    cursors := hargs.cursors
    counters := hargs.counters
    constCommand := hargs.const }
  bus := { h.bus with transferRate := fun _ => hbaud }

/-- Outside `SETUP` the reset machine is at `INIT`, whichever operation runs the transfer (R42 (c)). -/
theorem Inv.resetState_init {s : State} (h : Inv s) (ht : s.ctx.transferState ≠ .setup) :
    s.ctx.resetState = .init :=
  by_contra fun hn => ht (h.control.resetInSetup hn)

/-- A move of the transfer machine from a state other than `SETUP`. -/
theorem Inv.setTransferState {s : State} (h : Inv s) (hp : Polling s.ctx.owner s.srch)
    (ht : s.ctx.transferState ≠ .setup) (x : TransferState) :
    Inv (s.setCtx { s.ctx with transferState := x }) where
  params := h.params
  memory := h.memory
  control := { h.control with
    idle := fun ho => absurd ho hp.held
    resetting := fun ho => absurd (h.control.resetting ho).1 ht
    resetInSetup := fun hn => absurd (h.resetState_init ht) hn
    pairing := fun hi hq => (hp.not_pairing hi hq).elim
    passing := fun hq => .inr (hp.search_of_pass hq).2
    passCommand := fun hq _ => h.control.passCommand hq ht }
  ranges := { h.ranges with }
  bus := { h.bus with transferRate := fun _ => h.bus.transferRate (.inl ht) }

/-- An address the core may access exists (R61). -/
theorem lt_of_inWindow {p : Params} {a : Nat} (h : inWindow p a = true) : a < 2 ^ p.addrW := by
  simp only [inWindow, Bool.and_eq_true, decide_eq_true_eq] at h
  exact h.1

/-- The command cursor has room to advance once its byte was fetched: a host byte lies at an existing
address, and the constant is one byte (R176). -/
theorem Inv.commandCursor_lt {s : State} (h : Inv s) {b : Byte} (hb : cmdByte s = .ok b)
    (hleft : s.ctx.commandRemaining ≠ 0) : s.ctx.commandCursor < 2 ^ s.cfg.addrW := by
  unfold cmdByte at hb
  split at hb
  · exact lt_of_inWindow (memRead_eq_ok.1 hb).1
  · next hsrc =>
    have hone := h.ranges.constCommand hsrc
    have hpos : 0 < 2 ^ s.cfg.addrW := Nat.two_pow_pos _
    omega

/-- Taking a command byte (R172): the cursor moves on by one and the count down by one. -/
theorem Inv.takeCommandByte {s : State} (h : Inv s) (hleft : s.ctx.commandRemaining ≠ 0)
    (hcursor : s.ctx.commandCursor < 2 ^ s.cfg.addrW) :
    Inv (s.setCtx { s.ctx with
      commandCursor := s.ctx.commandCursor + 1
      commandRemaining := s.ctx.commandRemaining - 1 }) where
  params := h.params
  memory := h.memory
  control := { h.control with }
  ranges := { h.ranges with
    cursors := ⟨hcursor, h.ranges.cursors.2⟩
    counters := ⟨Nat.lt_of_le_of_lt (Nat.sub_le _ _) h.ranges.counters.1, h.ranges.counters.2⟩
    constCommand := fun hsrc => by
      have hone := h.ranges.constCommand hsrc
      show s.ctx.commandCursor + 1 + (s.ctx.commandRemaining - 1) ≤ 1
      omega }
  bus := { h.bus with }

/-- Storing a byte (R174): the data cursor moves on by one and the capacity down by one, a search's empty
buffer staying empty. -/
theorem Inv.takeDataByte {s : State} (h : Inv s) (hcursor : s.ctx.dataCursor < 2 ^ s.cfg.addrW) :
    Inv (s.setCtx { s.ctx with
      dataCursor := s.ctx.dataCursor + 1, dataRemaining := s.ctx.dataRemaining - 1 }) where
  params := h.params
  memory := h.memory
  control := { h.control with
    passCommand := fun hq ht => by
      obtain ⟨hsrc, hnone⟩ := h.control.passCommand hq ht
      exact ⟨hsrc, by simp [hnone]⟩ }
  ranges := { h.ranges with
    cursors := ⟨h.ranges.cursors.1, hcursor⟩
    counters := ⟨h.ranges.counters.1, Nat.lt_of_le_of_lt (Nat.sub_le _ _) h.ranges.counters.2⟩ }
  bus := { h.bus with }

/-- The skip counter is in no clause of the invariant. -/
theorem Inv.setReadSkip {s : State} (h : Inv s) (k : Byte) :
    Inv (s.setCtx { s.ctx with readSkip := k }) :=
  ⟨h.params, h.memory, { h.control with }, { h.ranges with }, { h.bus with }⟩

theorem Inv.captureByte {s t : State} (h : Inv s) {d : Byte} (hd : captureByte d s = .ok t) : Inv t := by
  obtain ⟨-, -, hwin, rfl⟩ | ⟨-, -, rfl⟩ | ⟨-, -, rfl⟩ := captureByte_cases hd
  · exact (h.setMem (Memory.write_wf h.memory _ d)).takeDataByte (lt_of_inWindow hwin)
  · exact h.setReadSkip _
  · exact h

theorem captureByte_transferState {d : Byte} {s t : State} (h : captureByte d s = .ok t) :
    t.ctx.transferState = s.ctx.transferState := by
  obtain ⟨-, -, -, rfl⟩ | ⟨-, -, rfl⟩ | ⟨-, -, rfl⟩ := captureByte_cases h <;> rfl

/-- What a transfer step answers: the invariant, and with a final status both machines at rest, the bus at
the transfer rate after `OK` (R172). -/
structure TransferDone (st : Status) (t : State) : Prop where
  inv : Inv t
  rest : st ≠ .wait → t.ctx.resetState = .init ∧ t.ctx.transferState = .setup
  rate : st = .ok → t.ctx.baud = .transfer

/-- Every state's action keeps the invariant, for a send and for a search pass. -/
theorem Inv.transferStep {s t : State} {st : Status} {args : TransferArgs} (h : Inv s)
    (hp : Polling s.ctx.owner s.srch) (howner : s.ctx.owner ≠ .reset)
    (hargs : args.Fits s.cfg s.ctx.owner) (hstep : transferStep args s = .ok (st, t)) :
    TransferDone st t := by
  obtain ⟨hst, -, rfl, rfl⟩ | ⟨hst, hr, rfl, rfl⟩ | ⟨hst, hr, rfl, rfl⟩ | ⟨hst, -, rfl, rfl⟩ |
    ⟨hst, hleft, rfl, b, hb, rfl⟩ | ⟨hst, rfl, rfl | rfl⟩ | ⟨hst, rfl, u, hu, rfl⟩ :=
    transferStep_cases hstep
  · exact ⟨h.resetStep hp hst, by simp, nofun⟩
  · obtain ⟨hinit, -, -⟩ := resetStep_ends (s := s) (by simp [hr])
    exact ⟨h.resetStep hp hst, fun _ => ⟨hinit, by simp [hst]⟩, nofun⟩
  · obtain ⟨hinit, hbaud, -⟩ := resetStep_ends (s := s) (by simp [hr])
    have hsnap := (h.resetStep hp hst).transferSnapshot (by simpa using hp) (by simpa using howner)
      (args := args) (by simpa using hargs) hinit hbaud
    exact ⟨hsnap, by simp, nofun⟩
  · have ht : s.ctx.transferState ≠ .setup := by simp [hst]
    exact ⟨h.setTransferState hp ht .setup, fun _ => ⟨h.resetState_init ht, rfl⟩,
      fun _ => h.bus.transferRate (.inl ht)⟩
  · have htaken := h.takeCommandByte hleft (h.commandCursor_lt hb hleft)
    have hsent := htaken.exchange (n := 8) (Nat.le_refl 8) (encodeByte s.cfg b)
    exact ⟨hsent.setTransferState hp (by simp [hst]) .await, by simp, nofun⟩
  · exact ⟨h, by simp, nofun⟩
  · exact ⟨h.setTransferState hp (by simp [hst]) .consume, by simp, nofun⟩
  · obtain ⟨-, hsrch, -, -, -, -, -, hown, -⟩ := captureByte_frame hu
    have hcaptured := h.rxDrawn.captureByte hu
    have ht : u.ctx.transferState ≠ .setup := by simp [captureByte_transferState hu, hst]
    have hpu : Polling u.ctx.owner u.srch := by simpa [hown, hsrch] using hp
    exact ⟨hcaptured.setTransferState hpu ht .writeByte, by simp, nofun⟩

/-! ## The search sequencer keeps the invariant -/

/-- In a search phase past the pass, a phase past the pass may follow, at any bit position in 1..64. -/
theorem Inv.setPairing {s : State} (h : Inv s) (hi : s.srch.phase ≠ .idle) (hq : s.srch.phase ≠ .pass)
    {x : Phase} (hxi : x ≠ .idle) (hxq : x ≠ .pass) {b : BitVec 7} (hb : 1 ≤ b) (hb' : b ≤ 64) :
    Inv (s.setSrch { s.srch with phase := x, bit := b }) where
  params := h.params
  memory := h.memory
  control :=
    { idle := fun ho => absurd (h.control.idle ho).2.2 hi
      resetting := fun ho => absurd (h.control.resetting ho).2 hi
      transferring := fun ho => absurd (h.control.transferring ho) hi
      resetInSetup := h.control.resetInSetup
      searching := fun _ => hxi
      pairing := fun _ _ =>
        have ⟨hreset, hsetup, hroom, _⟩ := h.control.pairing hi hq
        ⟨hreset, hsetup, hroom, hb⟩
      passing := fun hx => absurd hx hxq
      passCommand := fun hx => absurd hx hxq }
  ranges := { h.ranges with bit := hb', collisionFound := fun _ => h.ranges.collisionFound hi }
  bus := { h.bus with transferRate := fun _ => h.bus.transferRate (.inr ⟨hi, hq⟩) }

/-- The same at the same bit position. -/
theorem Inv.setPairPhase {s : State} (h : Inv s) (hi : s.srch.phase ≠ .idle) (hq : s.srch.phase ≠ .pass)
    {x : Phase} (hxi : x ≠ .idle) (hxq : x ≠ .pass) : Inv (s.setSrch { s.srch with phase := x }) :=
  have ⟨_, _, _, hbit⟩ := h.control.pairing hi hq
  h.setPairing hi hq hxi hxq hbit h.ranges.bit

/-- Recording the current position as a collision (R205). -/
theorem Inv.recordCollision {s : State} (h : Inv s) :
    Inv (s.setSrch { s.srch with currentCollision := s.srch.bit }) where
  params := h.params
  memory := h.memory
  control := { h.control with }
  ranges := { h.ranges with collisions := ⟨h.ranges.collisions.1, h.ranges.bit⟩ }
  bus := { h.bus with }

/-- The end of a pass's command (R201): both machines at rest, the bus at the transfer rate, and room for
the slot. -/
theorem Inv.beginPairs {s : State} (h : Inv s) (hp : Polling s.ctx.owner s.srch)
    (hphase : s.srch.phase = .pass)
    (hreset : s.ctx.resetState = .init) (hsetup : s.ctx.transferState = .setup)
    (hbaud : s.ctx.baud = .transfer) :
    Inv (s.setSrch { s.srch with currentCollision := 0, bit := 1, phase := .pairStart }) where
  params := h.params
  memory := h.memory
  control := by
    obtain ⟨howner, hroom⟩ := hp.search_of_pass hphase
    constructor <;> simp [howner, hreset, hsetup, hroom]
  ranges := { h.ranges with
    bit := show (1 : BitVec 7) ≤ 64 by decide
    collisions := ⟨h.ranges.collisions.1, word_zero_le _⟩
    collisionFound := fun _ => h.ranges.collisionFound (by simp [hphase]) }
  bus := { h.bus with transferRate := fun _ => hbaud }

/-- A search is the only operation whose phase is not idle (R42). -/
theorem Control.owner_search {c : Ctx} {q : Srch} (h : Control c q) (hq : q.phase ≠ .idle) :
    c.owner = .search := by
  cases ho : c.owner with
  | idle => exact absurd (h.idle ho).2.2 hq
  | reset => exact absurd (h.resetting ho).2 hq
  | transfer => exact absurd (h.transferring ho) hq
  | search => rfl

theorem searchArgs_fits {p : Params} (hp : p.wf = true) (o : Owner) : (searchArgs p).Fits p o where
  cursors := ⟨Nat.zero_le _, Nat.zero_le _⟩
  counters := by
    have hlen : 0 < p.lenW := Nat.lt_of_lt_of_le (by decide) (eight_le_lenW hp)
    exact ⟨Nat.one_lt_two_pow hlen.ne', Nat.two_pow_pos _⟩
  const _ := Nat.le_refl 1
  search _ := ⟨rfl, rfl⟩

theorem Inv.searchPass {s t : State} (h : Inv s) (hphase : s.srch.phase = .pass)
    (hstep : searchPass s = .ok t) : Inv t := by
  obtain ⟨hfull, rfl⟩ | ⟨hroom, st, u, hstep, hend⟩ := searchPass_cases hstep
  · obtain ⟨hreset, hsetup⟩ := (h.control.passing hphase).resolve_right (BitVec.not_lt.2 hfull)
    exact h.terminate hreset hsetup _
  · have howner := h.control.owner_search (by simp [hphase])
    have hp : Polling s.ctx.owner s.srch :=
      ⟨by simp [howner], fun hn => absurd howner hn, fun _ => ⟨hphase, hroom⟩⟩
    obtain ⟨hinv, hrest, hrate⟩ :=
      h.transferStep hp (by simp [howner]) (searchArgs_fits h.params _) hstep
    obtain ⟨-, hsrch, -, -, -, -, hown, -⟩ := transferStep_frame hstep
    obtain ⟨-, rfl⟩ | ⟨rfl, rfl⟩ | ⟨rfl, rfl⟩ := hend
    · exact hinv
    · obtain ⟨hreset, hsetup⟩ := hrest nofun
      exact hinv.terminate hreset hsetup _
    · obtain ⟨hreset, hsetup⟩ := hrest nofun
      exact hinv.beginPairs (by rwa [hown, hsrch]) (by rwa [hsrch]) hreset hsetup (hrate rfl)

theorem Inv.searchPairStart {s : State} (h : Inv s) (hphase : s.srch.phase = .pairStart) :
    Inv (searchPairStart s) := by
  have hsent := h.exchange (n := 2) (by decide) ((s.ctx.tx.set 0 s.cfg.slotOne).set 1 s.cfg.slotOne)
  exact hsent.setPairPhase (x := .pairWait) (by simp [hphase]) (by simp [hphase]) nofun nofun

theorem Inv.searchPairWait {s : State} (h : Inv s) (hphase : s.srch.phase = .pairWait) :
    Inv (searchPairWait s) := by
  obtain heq | heq := searchPairWait_cases s <;> rw [heq]
  · exact h
  · exact h.setPairPhase (x := .decide) (by simp [hphase]) (by simp [hphase]) nofun nofun

/-- Recording a chosen bit and starting its write slot (R206, R207). -/
theorem Inv.searchSelect {s t : State} (h : Inv s) (hphase : s.srch.phase = .decide) {sel : Bool}
    (hstep : searchSelect sel s = .ok t) : Inv t := by
  obtain ⟨-, rfl⟩ := searchSelect_eq_ok.1 hstep
  have hwritten := h.setMem (Memory.write_wf h.memory (curRomAddr s)
    (setBit (s.mem.read (curRomAddr s)) (romBitIndex s.srch.bit.toNat) sel))
  have hsent := hwritten.exchange (n := 1) (by decide) (s.ctx.tx.set 0 (bitSlot s.cfg sel))
  exact hsent.setPairPhase (x := .writeWait) (by simp [hphase]) (by simp [hphase]) nofun nofun

theorem Inv.searchDecide {s t : State} (h : Inv s) (hphase : s.srch.phase = .decide)
    (hstep : searchDecide s = .ok t) : Inv t := by
  obtain rfl | ⟨sel, u, hsel, rfl | rfl⟩ := searchDecide_cases hstep
  · obtain ⟨hreset, hsetup, -⟩ := h.control.pairing (by simp [hphase]) (by simp [hphase])
    exact h.rxDrawn.terminate (by simpa using hreset) (by simpa using hsetup) _
  · exact h.rxDrawn.searchSelect (by simpa using hphase) hsel
  · have hrecorded := h.rxDrawn.recordCollision
    rw [rxDrawn_srch] at hrecorded
    exact hrecorded.searchSelect hphase hsel

/-- A finished slot is counted (R208): there was room for it, so the count neither passes `srch.max` nor
wraps to 0. -/
theorem found_succ {n m : Byte} (h : n < m) : n + 1 ≤ m ∧ n + 1 ≠ 0 := by
  constructor <;> bv_omega

theorem bit_succ {b : BitVec 7} (h : b < 64) : 1 ≤ b + 1 ∧ b + 1 ≤ 64 := by
  constructor <;> bv_omega

/-- With no search under way any count up to `srch.max` may stand. -/
theorem Inv.countFound {s : State} (h : Inv s) (hidle : s.srch.phase = .idle)
    (hle : s.srch.found + 1 ≤ s.srch.max) :
    Inv (s.setSrch { s.srch with found := s.srch.found + 1 }) where
  params := h.params
  memory := h.memory
  control := { h.control with
    pairing := fun hi => absurd hidle hi
    passing := fun hq => by simp [hidle] at hq }
  ranges := { h.ranges with found := hle, collisionFound := fun hi => absurd hidle hi }
  bus := { h.bus with }

/-- Counting a finished slot and going back to `S_PASS`, with any last collision in its range (R208). -/
theorem Inv.nextPass {s : State} (h : Inv s) (hi : s.srch.phase ≠ .idle) (hq : s.srch.phase ≠ .pass)
    {c : BitVec 7} (hc : c ≤ 64) :
    Inv (s.setSrch { s.srch with
      found := s.srch.found + 1, lastCollision := c, bit := 0, phase := .pass }) := by
  obtain ⟨hreset, hsetup, hroom, -⟩ := h.control.pairing hi hq
  obtain ⟨hle, hne⟩ := found_succ hroom
  have howner := h.control.owner_search hi
  exact {
    params := h.params
    memory := h.memory
    control := by constructor <;> simp [howner, hreset, hsetup]
    ranges := { h.ranges with
      found := hle
      bit := word_zero_le _
      collisions := ⟨hc, h.ranges.collisions.2⟩
      collisionFound := fun _ _ => hne }
    bus := { h.bus with transferRate := by simp [hsetup] } }

theorem Inv.searchWriteWait {s : State} (h : Inv s) (hphase : s.srch.phase = .writeWait) :
    Inv (searchWriteWait s) := by
  have hi : s.srch.phase ≠ .idle := by simp [hphase]
  have hq : s.srch.phase ≠ .pass := by simp [hphase]
  obtain ⟨hreset, hsetup, hroom, -⟩ := h.control.pairing hi hq
  obtain heq | ⟨hbit, heq⟩ | heq | ⟨-, heq⟩ := searchWriteWait_cases s <;> rw [heq]
  · exact h
  · obtain ⟨hone, hle⟩ := bit_succ hbit
    exact h.setPairing (x := .pairStart) hi hq nofun nofun hone hle
  · exact (h.terminate hreset hsetup (s.srch.found + 1)).countFound rfl (found_succ hroom).1
  · exact h.nextPass hi hq h.ranges.collisions.2

/-- Every phase of the search sequencer keeps the invariant. -/
theorem searchStep_inv {s t : State} (h : Inv s) (hstep : searchStep s = .ok t) : Inv t := by
  unfold searchStep at hstep
  split at hstep
  · cases hstep; exact h
  · next hphase => exact h.searchPass hphase hstep
  · next hphase => cases hstep; exact h.searchPairStart hphase
  · next hphase => cases hstep; exact h.searchPairWait hphase
  · next hphase => exact h.searchDecide hphase hstep
  · next hphase => cases hstep; exact h.searchWriteWait hphase

/-! ## Every transition keeps the invariant -/

/-- A request's operands fit the transfer's arguments (R91, R170). -/
theorem sendArgs_fits {p : Params} {a la b lb : Nat} {skip : Byte}
    (h : (Instr.send a la b lb skip).wf p = true) :
    (TransferArgs.mk .host a la b lb skip).Fits p .transfer := by
  simp only [Instr.wf, Params.addrFits, Params.lenFits, Bool.and_eq_true, decide_eq_true_eq] at h
  obtain ⟨⟨⟨ha, hla⟩, hb⟩, hlb⟩ := h
  exact ⟨⟨ha.le, hb.le⟩, ⟨hla, hlb⟩, nofun, nofun⟩

/-- Every operation keeps the invariant, its operands within their fields. -/
theorem ExecEffect.inv {s t : State} {i : Instr} (he : ExecEffect s i t) (h : Inv s)
    (hi : i.wf s.cfg = true) : Inv t := by
  cases he with
  | clear => exact h.clear.congr rfl rfl rfl rfl rfl
  | reset howner =>
    obtain ⟨htaken, hp, hsetup⟩ := h.takeReset howner
    refine (htaken.resetStep hp hsetup).endPoll ?_ fun hend => ⟨(resetStep_ends hend).1, ?_⟩
    · simpa using hp.request nofun
    · simpa using hsetup
  | send howner hstep =>
    obtain ⟨htaken, hp⟩ := h.takeTransfer howner
    obtain ⟨hinv, hrest, -⟩ := htaken.transferStep hp nofun (sendArgs_fits hi) hstep
    obtain ⟨-, hsrch, -⟩ := transferStep_frame hstep
    exact hinv.endPoll (by rw [hsrch]; exact hp.request nofun) hrest
  | search howner =>
    exact (h.takeSearch howner (of_decide_eq_true hi) _).congr rfl rfl rfl rfl rfl
  | stateless a bs v =>
    exact (h.setMem (writeAll_wf h.memory a bs)).congr rfl rfl rfl rfl rfl

/-- Every agent's transition keeps the invariant. -/
theorem Transition.inv {s t : State} (htrans : Transition s t) (h : Inv s) : Inv t := by
  cases htrans with
  | request hdecode hexec => exact (exec_effect hexec).inv h (decode_wf hdecode)
  | hostWrite a v => exact h.setMem (Memory.write_wf h.memory a v)
  | core hsearch => exact searchStep_inv h hsearch
  | complete b => exact h.subComplete b
  | tick | fault => exact h.congr rfl rfl rfl rfl rfl
  | stay => exact h

/-- Settles O59: a step is one transition of one agent, after an action was taken off the pending ones. -/
theorem stepKeepsTheInvariant : Obligations.StepKeepsTheInvariant := by
  intro s t h hstep
  obtain ⟨es, htrans⟩ := step_transition hstep
  exact htrans.inv (h.congr rfl rfl rfl rfl rfl)

end Sys2Proof.Machine
end

section
/-! SUPPORT. Proofs about host memory, the substrate port and the clock (20_memory.md): which accesses the
core may make, what a write of the host leaves, and what the substrate, the clock and an exchange change. -/

namespace Sys2Proof.Machine

/-! ## Accesses of the core and writes of the host -/

/-- The window test is R61's: the address exists and lies in one of the regions. -/
theorem inWindow_iff {p : Params} {a : Nat} : inWindow p a = true ↔
    a < 2 ^ p.addrW ∧ ∃ r ∈ p.window, r.base ≤ a ∧ a < r.base + r.size := by
  simp only [inWindow, Bool.and_eq_true, decide_eq_true_eq, List.any_eq_true]

/-- Settles O13: the window test decides both accesses. -/
theorem accessOutsideTheWindowFaults : Obligations.AccessOutsideTheWindowFaults := by
  intro s a v
  rw [← inWindow_iff, Bool.not_eq_true]
  exact ⟨fun hin => ⟨memRead_eq_ok.2 ⟨hin, rfl⟩, memWrite_eq_ok.2 ⟨hin, rfl⟩⟩,
    fun hout => ⟨memRead_eq_error.2 ⟨hout, rfl⟩, memWrite_eq_error.2 ⟨hout, rfl⟩⟩⟩

/-- A host write at the head of the outside's list is taken when the host is not blocked and the address
exists (R67, R273). -/
theorem step_hostWrite {s : State} {a : Nat} {v : Byte} {es : List Event} (hready : HostReady s)
    (ha : a < 2 ^ s.cfg.addrW) (he : s.env = .hostWrite a v :: es) :
    step s = .next { s with mem := s.mem.write a v, env := es } := by
  obtain ⟨hfault, howner⟩ := hready
  exact step_head hfault he (by simp [eventEnabled, howner, ha])

/-- Settles O14: the step is the write, and memory read after it gives the byte written at that address
and the old one elsewhere. -/
theorem hostWriteIsSeenByTheCore : Obligations.HostWriteIsSeenByTheCore := by
  intro s a v es hready hwf ha he
  have hsame : (s.mem.write a v).read a = v := Memory.read_write_same hwf a v
  exact ⟨s.mem.write a v, step_hostWrite hready ha he, hsame,
    fun x hx => Memory.read_write_other s.mem v hx,
    fun hin => memRead_eq_ok.2 ⟨hin, hsame.symm⟩,
    fun hout => memRead_eq_error.2 ⟨hout, rfl⟩⟩

/-! ## The substrate and the clock -/

/-- A pending completion is taken when the substrate is busy (R72). -/
theorem step_complete {s : State} {b : Slots} {es : List Event} (hf : s.fault = none)
    (he : s.env = .complete b :: es) (hbusy : s.sub.busy = true) :
    step s = .next (subComplete b (s.setEnv es)) :=
  step_head hf he hbusy

/-- A pending clock action is always taken (R74). -/
theorem step_tick {s : State} {ms : Millis} {es : List Event} (hf : s.fault = none)
    (he : s.env = .tick ms :: es) : step s = .next (clockAdvance ms (s.setEnv es)) :=
  step_head hf he rfl

/-- Settles O52: the buffer a completion leaves is the merge of the old one and the bytes chosen. -/
theorem substrateAndClockSteps : Obligations.SubstrateAndClockSteps := by
  intro s es hf
  refine ⟨fun b he hbusy => ?_, fun ms he => step_tick hf he⟩
  exact ⟨mergeRx s.ctx.rx b s.sub.rxPending, step_complete hf he hbusy,
    mergeRx_get s.ctx.rx b s.sub.rxPending⟩

/-! ## The exchange macros -/

/-- The timeout test as a comparison of numbers, the clock's wrap written out (R76). -/
theorem millis_le_sub_iff (limit now start : Millis) : limit ≤ now - start ↔
    limit.toNat ≤ (now.toNat + (2 ^ 32 - start.toNat)) % 2 ^ 32 := by
  rw [BitVec.le_def, BitVec.toNat_sub, Nat.add_comm]

/-- Settles O53: the start's one context write and its armed substrate, and the end of an exchange with
the elapsed time read modulo 2^32. -/
theorem exchangeMacros : Obligations.ExchangeMacros := by
  intro s n
  refine ⟨rfl, ?_⟩
  rw [exchDone_iff, millis_le_sub_iff]

end Sys2Proof.Machine
end

section
/-! SUPPORT. Proofs about the request record, its packed word and the result record (30_encoding.md R91 to
R97): the fields of a packed word, the decoder as the encoder's inverse, the illegal codes, and the result
each operation hands the host. -/

namespace Sys2Proof

/-! ## Fields of a layered word

A packed word is a field below a shifted word, which is again one; the two lemmas read the lowest field and
step over it. -/

theorem bitField_zero (w n : Nat) : bitField w 0 n = w % 2 ^ n := by
  rw [bitField, pow_zero, Nat.div_one]

theorem bitField_lowest {x n : Nat} (y : Nat) (hx : x < 2 ^ n) : bitField (x + 2 ^ n * y) 0 n = x := by
  rw [bitField_zero, Nat.add_mul_mod_self_left, Nat.mod_eq_of_lt hx]

theorem bitField_above {x k : Nat} (y lo n : Nat) (hx : x < 2 ^ k) :
    bitField (x + 2 ^ k * y) (k + lo) n = bitField y lo n := by
  rw [bitField, pow_add, ← Nat.div_div_eq_div_mul, Nat.add_mul_div_left _ _ (Nat.two_pow_pos k),
    Nat.div_eq_of_lt hx, Nat.zero_add, bitField]

theorem bitField_next {x k : Nat} (y n : Nat) (hx : x < 2 ^ k) :
    bitField (x + 2 ^ k * y) k n = bitField y 0 n :=
  bitField_above y 0 n hx

theorem layer_lt {x y k m : Nat} (hx : x < 2 ^ k) (hy : y < 2 ^ m) : x + 2 ^ k * y < 2 ^ (k + m) :=
  calc x + 2 ^ k * y < 2 ^ k * (y + 1) := by rw [Nat.mul_succ]; omega
    _ ≤ 2 ^ (k + m) := by rw [pow_add]; exact Nat.mul_le_mul_left _ hy

/-! ## The packed word (R92) -/

/-- The packed word, each field below the ones after it (R92). -/
theorem pack_layers (p : Params) (r : Req) :
    pack p r = r.op.toNat + 2 ^ 8 * (r.imm.toNat + 2 ^ 16 * (r.a + 2 ^ p.addrW * (r.la + 2 ^ p.lenW *
      (r.b + 2 ^ p.addrW * r.lb)))) := by
  simp only [pack, pow_add]
  ring

theorem Req.fits_iff {p : Params} {r : Req} : r.fits p = true ↔
    r.a < 2 ^ p.addrW ∧ r.la < 2 ^ p.lenW ∧ r.b < 2 ^ p.addrW ∧ r.lb < 2 ^ p.lenW := by
  simp only [Req.fits, Params.addrFits, Params.lenFits, Bool.and_eq_true, decide_eq_true_eq, and_assoc]

section
variable (p : Params) (r : Req)

theorem pack_op : bitField (pack p r) 0 8 = r.op.toNat := by
  rw [pack_layers, bitField_lowest _ r.op.isLt]

theorem pack_imm : bitField (pack p r) 8 16 = r.imm.toNat := by
  rw [pack_layers, bitField_next _ _ r.op.isLt, bitField_lowest _ r.imm.isLt]

/-- Past `OP` and `IMM` the word holds the addresses and lengths. -/
theorem pack_above_imm (lo n : Nat) : bitField (pack p r) (24 + lo) n =
    bitField (r.a + 2 ^ p.addrW * (r.la + 2 ^ p.lenW * (r.b + 2 ^ p.addrW * r.lb))) lo n := by
  rw [pack_layers, show 24 + lo = 8 + (16 + lo) by omega, bitField_above _ _ _ r.op.isLt,
    bitField_above _ _ _ r.imm.isLt]

end

section
variable {p : Params} {r : Req}

theorem pack_a (h : r.fits p = true) : bitField (pack p r) 24 p.addrW = r.a := by
  obtain ⟨ha, -⟩ := Req.fits_iff.1 h
  rw [pack_above_imm p r 0, bitField_lowest _ ha]

theorem pack_la (h : r.fits p = true) : bitField (pack p r) (24 + p.addrW) p.lenW = r.la := by
  obtain ⟨ha, hla, -⟩ := Req.fits_iff.1 h
  rw [pack_above_imm, bitField_next _ _ ha, bitField_lowest _ hla]

theorem pack_b (h : r.fits p = true) :
    bitField (pack p r) (24 + p.addrW + p.lenW) p.addrW = r.b := by
  obtain ⟨ha, hla, hb, -⟩ := Req.fits_iff.1 h
  rw [Nat.add_assoc, pack_above_imm, bitField_above _ _ _ ha, bitField_next _ _ hla,
    bitField_lowest _ hb]

theorem pack_lb (h : r.fits p = true) :
    bitField (pack p r) (24 + p.addrW + p.lenW + p.addrW) p.lenW = r.lb := by
  obtain ⟨ha, hla, hb, hlb⟩ := Req.fits_iff.1 h
  rw [Nat.add_assoc, Nat.add_assoc, pack_above_imm, bitField_above _ _ _ ha, bitField_above _ _ _ hla,
    bitField_next _ _ hb, bitField_zero, Nat.mod_eq_of_lt hlb]

theorem pack_lt (h : r.fits p = true) : pack p r < 2 ^ (24 + 2 * p.addrW + 2 * p.lenW) := by
  obtain ⟨ha, hla, hb, hlb⟩ := Req.fits_iff.1 h
  rw [pack_layers, show 24 + 2 * p.addrW + 2 * p.lenW
    = 8 + (16 + (p.addrW + (p.lenW + (p.addrW + p.lenW)))) by omega]
  exact layer_lt r.op.isLt (layer_lt r.imm.isLt (layer_lt ha (layer_lt hla (layer_lt hb hlb))))

/-- Unpacking a packed record that fits gives it back (R92). -/
theorem unpack_pack (h : r.fits p = true) : unpack p (pack p r) = r := by
  simp only [unpack, pack_op, pack_imm, pack_a h, pack_la h, pack_b h, pack_lb h,
    BitVec.ofNat_toNat, BitVec.setWidth_eq]

end

/-- Settles O2: the packed word read layer by layer. -/
theorem packedWordHoldsEveryField : Obligations.PackedWordHoldsEveryField := fun p r h =>
  ⟨pack_op p r, pack_imm p r, pack_a h, pack_la h, pack_b h, pack_lb h, pack_lt h, unpack_pack h⟩

/-! ## The decoder inverts the encoder (R93, R94) -/

/-- The decoder of a packed record is the decoder of the record. -/
theorem decode_pack {p : Params} {r : Req} (h : r.fits p = true) :
    decode p (pack p r) = decodeReq r := by
  rw [decode, unpack_pack h]

/-- An operation whose operands fit has a record that fits: an unused field holds 0 (R93). -/
theorem encodeReq_fits {p : Params} {i : Instr} (h : i.wf p = true) : (encodeReq i).fits p = true := by
  have zero_fits : p.addrFits 0 = true ∧ p.lenFits 0 = true :=
    ⟨decide_eq_true (Nat.two_pow_pos _), decide_eq_true (Nat.two_pow_pos _)⟩
  cases i <;> simp_all [Instr.wf, Req.fits, encodeReq]

theorem decodeReq_encodeReq (i : Instr) : decodeReq (encodeReq i) = .ok i := by
  cases i <;> simp [encodeReq, decodeReq, Instr.opcode, Req.immByte]

/-- Settles O1: the record of an operation fits its fields, and packing a record that fits drops nothing. -/
theorem decodeInvertsEncode : Obligations.DecodeInvertsEncode := by
  intro p i h
  rw [encode, decode_pack (encodeReq_fits h), decodeReq_encodeReq]

theorem decode_of_encode {p : Params} {i : Instr} {w : Nat} (hi : i.wf p = true) (hw : encode p i = w) :
    decode p w = .ok i :=
  hw ▸ decodeInvertsEncode p i hi

/-- Settles O3: every field of an unpacked record is within its width. -/
theorem decodedOperandsFit : Obligations.DecodedOperandsFit := fun _ _ _ => decode_wf

/-- Settles O5: each printed word is the packed word of the operation it stands for. -/
theorem specWordsDecode : Obligations.SpecWordsDecode :=
  ⟨decode_of_encode rfl rfl, decode_of_encode rfl rfl, decode_of_encode rfl rfl, decode_of_encode rfl rfl,
    decode_of_encode rfl rfl, decode_of_encode rfl rfl, decode_of_encode rfl rfl, decode_of_encode rfl rfl,
    decode_of_encode rfl rfl⟩

/-! ## Unused fields (R93, R97) -/

/-- A record decodes to an operation with its code, or its `OP` is reserved and is the reason (R95). -/
theorem decodeReq_cases (r : Req) :
    (∃ i, decodeReq r = .ok i ∧ i.opcode = r.op)
    ∨ (decodeReq r = .error (.reservedOp r.op) ∧ (r.op = 0x00 ∨ 0x0A ≤ r.op)) := by
  unfold decodeReq
  split
  case h_10 =>
    refine .inr ⟨rfl, ?_⟩
    simp only [imp_false] at *
    bv_omega
  all_goals exact .inl ⟨_, rfl, BitVec.eq_of_toNat_eq (by simp_all [Instr.opcode])⟩

theorem decodeReq_ok_of_code {r : Req} (h : 1 ≤ r.op.toNat ∧ r.op.toNat ≤ 9) : ∃ i, decodeReq r = .ok i := by
  obtain ⟨i, hi, -⟩ | ⟨-, hreserved⟩ := decodeReq_cases r
  · exact ⟨i, hi⟩
  · bv_omega

/-- Settles O4: the decoder of each code reads the fields R93 names for it. -/
theorem unusedFieldsAreIgnored : Obligations.UnusedFieldsAreIgnored := by
  intro p r q hr hq hop hbyte himm ha hla hb hlb
  rw [decode_pack hr, decode_pack hq]
  refine ⟨?_, decodeReq_ok_of_code⟩
  have himmByte : r.op.toNat ∈ [3, 4, 8] → r.immByte = q.immByte := by
    simpa only [Req.immByte, BitVec.setWidth_eq_extractLsb' (show 8 ≤ 16 by decide)] using hbyte
  unfold decodeReq
  rw [← hop]
  split <;> simp_all

end Sys2Proof

namespace Sys2Proof.Machine

/-! ## The result word (R96) -/

/-- Settles O7: each field is one part of the concatenation the record packs into. -/
theorem resultWordLayout : Obligations.ResultWordLayout := by
  intro r
  refine ⟨?_, ?_, ?_, rfl, rfl, rfl⟩ <;> unfold Result.pack
  · rw [BitVec.extractLsb'_append_eq_of_add_le (by decide), BitVec.extractLsb'_append_eq_right]
  · rw [BitVec.extractLsb'_append_eq_of_add_le (by decide), BitVec.extractLsb'_append_eq_left]
    rfl
  · exact BitVec.extractLsb'_append_eq_left

/-! ## The faults of an operation's own step

Past the checks of a host step (R270) an operation's own step raises `Fault(MemRange)` or nothing
(60_exceptions.md R305). -/

/-- Every fault of the computation is a `Fault(MemRange)`. -/
def OnlyMemRange {α : Type} (x : Except Fault α) : Prop :=
  ∀ r, x = .error r → ∃ a k, r = .memRange a k

theorem OnlyMemRange.ok {α : Type} (a : α) : OnlyMemRange (.ok a) := nofun

theorem OnlyMemRange.bind {α β : Type} {x : Except Fault α} {f : α → Except Fault β}
    (hx : OnlyMemRange x) (hf : ∀ a, OnlyMemRange (f a)) : OnlyMemRange (x >>= f) := by
  intro r h
  obtain h | ⟨a, -, h⟩ := bind_eq_error.1 h
  · exact hx r h
  · exact hf a r h

theorem memRead_onlyMemRange (a : Nat) (s : State) : OnlyMemRange (memRead a s) :=
  fun _ h => ⟨a, .read, (memRead_eq_error.1 h).2⟩

theorem memWrite_onlyMemRange (a : Nat) (v : Byte) (s : State) : OnlyMemRange (memWrite a v s) :=
  fun _ h => ⟨a, .write, (memWrite_eq_error.1 h).2⟩

theorem readBytes_onlyMemRange (n : Nat) : ∀ (a : Nat) (s : State), OnlyMemRange (readBytes a n s) := by
  induction n with
  | zero => exact fun _ _ => .ok _
  | succ n ih =>
    exact fun a s => (memRead_onlyMemRange a s).bind fun _ => (ih (a + 1) s).bind fun _ => .ok _

theorem writeBytes_onlyMemRange (bs : List Byte) :
    ∀ (a : Nat) (s : State), OnlyMemRange (writeBytes a bs s) := by
  induction bs with
  | nil => exact fun _ _ => .ok _
  | cons b bs ih => exact fun a s => (memWrite_onlyMemRange a b s).bind (ih (a + 1))

theorem readSlots_onlyMemRange (a : Nat) (s : State) : OnlyMemRange (readSlots a s) := by
  unfold readSlots
  iterate 8 refine (memRead_onlyMemRange _ s).bind fun _ => ?_
  exact .ok _

theorem cmdByte_onlyMemRange (s : State) : OnlyMemRange (cmdByte s) := by
  unfold cmdByte
  split
  · exact memRead_onlyMemRange _ s
  · exact .ok _

theorem captureByte_onlyMemRange (d : Byte) (s : State) : OnlyMemRange (captureByte d s) := by
  unfold captureByte
  split_ifs
  · exact (memWrite_onlyMemRange _ d s).bind fun _ => .ok _
  · exact .ok _
  · exact .ok _

theorem transferStep_onlyMemRange (args : TransferArgs) (s : State) :
    OnlyMemRange (transferStep args s) := by
  unfold transferStep
  split
  case h_2 =>
    unfold transferWriteByte
    split_ifs
    · exact .ok _
    · exact (cmdByte_onlyMemRange s).bind fun _ => .ok _
  case h_4 => exact (captureByte_onlyMemRange _ _).bind fun _ => .ok _
  all_goals exact .ok _

/-- Every operation is a host step with its own code, around a step that raises `Fault(MemRange)` or
nothing (R270, R305). -/
theorem exec_eq_hostStep (i : Instr) (s : State) :
    ∃ body, exec i s = hostStep i.opcode s body ∧ OnlyMemRange body := by
  cases i with
  | clear | reset | search => exact ⟨_, rfl, .ok _⟩
  | send => exact ⟨_, rfl, (transferStep_onlyMemRange _ _).bind fun _ => .ok _⟩
  | crc8 | crc16 => exact ⟨_, rfl, (readBytes_onlyMemRange _ _ s).bind fun _ => .ok _⟩
  | checkCrc16 =>
    exact ⟨_, rfl, (readBytes_onlyMemRange _ _ s).bind fun _ => (memRead_onlyMemRange _ s).bind fun _ =>
      (memRead_onlyMemRange _ s).bind fun _ => .ok _⟩
  | encode => exact ⟨_, rfl, (writeBytes_onlyMemRange _ _ s).bind fun _ => .ok _⟩
  | decode => exact ⟨_, rfl, (readSlots_onlyMemRange _ s).bind fun _ => .ok _⟩

/-! ## Illegal codes (R95) -/

/-- The illegal codes: the reserved ones and those of a feature that is not built in. -/
theorem legalOp_eq_false {p : Params} {op : Byte} : legalOp p op = false ↔
    op = 0x00 ∨ 0x0A ≤ op ∨ (op = 0x04 ∧ p.featureSearch = false)
      ∨ ((op = 0x06 ∨ op = 0x07) ∧ p.featureCrc16 = false) := by
  unfold legalOp
  cases p.featureSearch <;> cases p.featureCrc16 <;> simp <;> bv_omega

/-- A host step with an illegal code faults before its operation's own step (R270). -/
theorem hostStep_illegal {op : Byte} {s : State} {body : Except Fault State} (hready : HostReady s)
    (hop : legalOp s.cfg op = false) : hostStep op s body = .fault (.illegalOp op) := by
  obtain ⟨hfault, howner⟩ := hready
  simp [hostStep, hfault, howner, hop]

/-- The faults of a host step with a legal code: `Fault(Overlap)`, or one of the operation's own step. -/
theorem hostStep_legal_fault {op : Byte} {s : State} {body : Except Fault State} {r : Fault}
    (hready : HostReady s) (hop : legalOp s.cfg op = true) (h : hostStep op s body = .fault r) :
    r = .overlap op s.ctx.owner ∨ body = .error r := by
  obtain ⟨hfault, howner⟩ := hready
  simp only [hostStep, hfault, if_neg howner, hop, Bool.not_true, Bool.false_eq_true, if_false] at h
  split_ifs at h
  · cases h; exact .inl rfl
  · exact .inr (outcomeOf_eq_fault.1 h)

/-- The `OP` of a packed word is its low byte (R92). -/
theorem unpack_op (p : Params) (w : Nat) : (unpack p w).op = BitVec.ofNat 8 w := by
  apply BitVec.eq_of_toNat_eq
  simp [unpack, bitField]

/-- A request with an illegal code faults with its `OP`, whether the decoder or the operation's host step
rejects it. -/
theorem runRequest_illegal {w : Nat} {s : State} (hready : HostReady s)
    (hop : legalOp s.cfg (BitVec.ofNat 8 w) = false) :
    runRequest w s = .fault (.illegalOp (BitVec.ofNat 8 w)) := by
  rw [← unpack_op s.cfg] at hop ⊢
  obtain ⟨i, hi, hcode⟩ | ⟨herr, -⟩ := decodeReq_cases (unpack s.cfg w)
  · obtain ⟨body, hexec, -⟩ := exec_eq_hostStep i s
    rw [← hcode] at hop ⊢
    rw [runRequest, decode, hi]
    exact hexec.trans (hostStep_illegal hready hop)
  · rw [runRequest, decode, herr]

/-- A request with a legal code runs an operation with that code. -/
theorem runRequest_legal {w : Nat} {s : State} (hop : legalOp s.cfg (BitVec.ofNat 8 w) = true) :
    ∃ i, i.opcode = BitVec.ofNat 8 w ∧ runRequest w s = exec i s := by
  obtain ⟨i, hi, hcode⟩ | ⟨-, hreserved⟩ := decodeReq_cases (unpack s.cfg w)
  · exact ⟨i, hcode.trans (unpack_op _ _), by rw [runRequest, decode, hi]⟩
  · rw [unpack_op] at hreserved
    rw [legalOp_eq_false.2 (hreserved.imp_right .inl)] at hop
    cases hop

/-- An operation with a legal code does not raise `Fault(IllegalOp)`. -/
theorem exec_legal_not_illegalOp {i : Instr} {s : State} (hready : HostReady s)
    (hop : legalOp s.cfg i.opcode = true) (o : Byte) : exec i s ≠ .fault (.illegalOp o) := by
  intro h
  obtain ⟨body, hexec, hmem⟩ := exec_eq_hostStep i s
  obtain hover | hbody := hostStep_legal_fault hready hop (hexec.symm.trans h)
  · cases hover
  · obtain ⟨a, k, hr⟩ := hmem _ hbody
    cases hr

@[simp] theorem endPoll_fault (st : Status) (s : State) : (endPoll st s).fault = s.fault := by
  cases st <;> rfl

/-- No instruction writes the recorded fault: `step` does (60_exceptions.md R302). -/
theorem ExecEffect.fault_eq {s t : State} {i : Instr} (h : ExecEffect s i t) : t.fault = s.fault := by
  cases h with
  | clear | search | stateless => rfl
  | reset => exact (endPoll_fault _ _).trans (resetStep_fault _)
  | send _ hstep =>
    obtain ⟨-, -, -, -, hfault, -⟩ := transferStep_frame hstep
    exact (endPoll_fault _ _).trans hfault

/-- A request at the head of the outside's list is taken when the host has a step (R273). -/
theorem step_request {s : State} {w : Nat} {es : List Event} (hready : HostReady s)
    (he : s.env = .request w :: es) :
    step s = commit (s.setEnv es) (runRequest w (s.setEnv es)) := by
  obtain ⟨hfault, howner⟩ := hready
  exact step_head hfault he (decide_eq_true howner)

/-- Settles O6: an illegal code is rejected by the decoder or the first check of the host step, and a legal
one runs an operation that raises other faults only. -/
theorem illegalCodesFaultBeforeAnyEffect : Obligations.IllegalCodesFaultBeforeAnyEffect := by
  intro s w es hready he
  dsimp only
  rw [← legalOp_eq_false, Bool.not_eq_false, step_request hready he]
  have hready' : HostReady (s.setEnv es) := hready
  refine ⟨fun hop => ?_, fun hop t o hstep hfault => ?_⟩
  · rw [runRequest_illegal hready' hop]
    rfl
  · obtain ⟨i, hcode, hrun⟩ := runRequest_legal (s := s.setEnv es) hop
    rw [hrun] at hstep
    obtain hexec | ⟨r, hexec, rfl⟩ := commit_eq_next.1 hstep
    · have hnone : t.fault = none := (exec_effect hexec).fault_eq.trans hready'.1
      rw [hnone] at hfault
      cases hfault
    · cases hfault
      exact exec_legal_not_illegalOp hready' (hcode ▸ hop) o hexec

/-! ## What each operation hands the host (R96, R301) -/

@[simp] theorem deliver_result (st : Status) (v : Half) (s : State) :
    (deliver st v s).result = some ⟨st, v⟩ := rfl

@[simp] theorem endPoll_result (st : Status) (s : State) : (endPoll st s).result = some ⟨st, 0⟩ := rfl

/-- A host step that answers a next state is its operation's own step. -/
theorem hostStep_body {op : Byte} {s t : State} {body : Except Fault State}
    (h : hostStep op s body = .next t) : body = .ok t := by
  obtain ⟨-, -, -, -, hbody⟩ := hostStep_eq_next.1 h
  exact hbody

/-- The last step of an operation that computes a value first. -/
theorem hostStep_bind {α : Type} {op : Byte} {s t : State} {x : Except Fault α}
    {f : α → Except Fault State} (h : hostStep op s (x >>= f) = .next t) : ∃ a, f a = .ok t := by
  obtain ⟨a, -, ha⟩ := bind_eq_ok.1 (hostStep_body h)
  exact ⟨a, ha⟩

/-- Settles O8: each operation's own step ends by delivering its result. -/
theorem resultsByOperation : Obligations.ResultsByOperation := by
  intro i s t h
  cases i with
  | clear | search =>
    cases hostStep_body h
    rfl
  | reset =>
    cases hostStep_body h
    exact ⟨_, rfl⟩
  | encode =>
    obtain ⟨_, hend⟩ := hostStep_bind h
    cases hend
    rfl
  | send | crc8 | crc16 | decode =>
    obtain ⟨_, hend⟩ := hostStep_bind h
    cases hend
    exact ⟨_, rfl⟩
  | checkCrc16 a la b seed =>
    obtain ⟨bytes, hend⟩ := hostStep_bind h
    obtain ⟨i0, -, hend⟩ := bind_eq_ok.1 hend
    obtain ⟨i1, -, hend⟩ := bind_eq_ok.1 hend
    cases hend
    by_cases hmatch : checkCrc16 s.cfg bytes i0 i1 seed = true
    · exact .inr (by rw [deliver_result, if_pos hmatch])
    · exact .inl (by rw [deliver_result, if_neg hmatch])

end Sys2Proof.Machine
end

section
/-! SUPPORT. Proofs about the bit codec (40_bit_codec.md): the encoder and the decoder slot by slot, what they
undo of each other, and the operations ENCODE and DECODE over an eight-byte slot area. -/

namespace Sys2Proof.Machine

/-! ## One slot (R122, R123) -/

theorem slotBit_eq_decide (p : Params) (b : Byte) : slotBit p b = decide (b = p.slotOne) := rfl

/-- A written bit is read back when the two patterns differ. -/
theorem slotBit_bitSlot {p : Params} (hp : p.slotOne ≠ p.slotZero) (x : Bool) :
    slotBit p (bitSlot p x) = x := by
  cases x with
  | true => exact decide_eq_true rfl
  | false => exact decide_eq_false hp.symm

/-- A slot is rebuilt from its bit exactly when it is one of the two patterns. -/
theorem bitSlot_slotBit_iff (p : Params) (b : Byte) :
    bitSlot p (slotBit p b) = b ↔ b = p.slotZero ∨ b = p.slotOne := by
  rw [slotBit_eq_decide]
  by_cases hb : b = p.slotOne
  · simp [bitSlot, hb]
  · simp [bitSlot, hb, eq_comm]

/-! ## The eight slots (R120, R121) -/

theorem encodeByte_get (p : Params) (v : Byte) {i : Nat} (hi : i < 8) :
    (encodeByte p v)[i] = bitSlot p (v.getLsbD i) := by
  interval_cases i <;> rfl

theorem decodeByte_getLsbD (p : Params) (x : Slots) {i : Nat} (hi : i < 8) :
    (decodeByte p x).getLsbD i = slotBit p x[i] := by
  rw [decodeByte, BitVec.getLsbD_ofBoolListLE]
  interval_cases i <;> rfl

/-- Settles O9: the slot and the bit at each index, with R122 and R123 written out. -/
theorem codecSlotBySlot : Obligations.CodecSlotBySlot := fun p v x _ hi =>
  ⟨encodeByte_get p v hi, decodeByte_getLsbD p x hi⟩

theorem decodeByte_encodeByte {p : Params} (hp : p.slotOne ≠ p.slotZero) (v : Byte) :
    decodeByte p (encodeByte p v) = v := by
  refine BitVec.eq_of_getLsbD_eq fun i hi => ?_
  rw [decodeByte_getLsbD p _ hi, encodeByte_get p v hi, slotBit_bitSlot hp]

theorem encodeByte_decodeByte_iff (p : Params) (x : Slots) : encodeByte p (decodeByte p x) = x ↔
    ∀ (i : Nat) (hi : i < 8), x[i] = p.slotZero ∨ x[i] = p.slotOne := by
  rw [Vector.ext_iff]
  refine forall₂_congr fun i hi => ?_
  rw [encodeByte_get p _ hi, decodeByte_getLsbD p x hi, bitSlot_slotBit_iff]

/-- Settles O10: both compositions slot by slot, and every slot but `SLOT_ONE` decoding to 0. -/
theorem codecRoundTrip : Obligations.CodecRoundTrip := by
  intro p hp
  refine ⟨decodeByte_encodeByte hp, encodeByte_decodeByte_iff p, fun x y hx hy => ?_⟩
  rw [slotBit_eq_decide, slotBit_eq_decide, decide_eq_false hx, decide_eq_false hy]

/-! ## Host steps of the operations no owner blocks (R270, R271) -/

/-- A legal operation other than RESET, SEND and SEARCH runs its own step whenever the host has one. -/
theorem hostStep_ready {op : Byte} {s : State} {body : Except Fault State} (hready : HostReady s)
    (hl : legalOp s.cfg op = true) (hop : op ≠ 0x02 ∧ op ≠ 0x03 ∧ op ≠ 0x04) :
    hostStep op s body = outcomeOf body := by
  obtain ⟨hfault, howner⟩ := hready
  exact hostStep_allowed hfault howner hl ((ownerAllows_other hop).trans (decide_eq_true howner))

/-! ## ENCODE (R124) -/

theorem exec_encode {v : Byte} {a : Nat} {s : State} (hready : HostReady s) :
    exec (.encode v a) s =
      outcomeOf (writeBytes a (encodeByte s.cfg v).toList s >>= fun t => pure (deliver .ok 0 t)) :=
  hostStep_ready hready rfl (by decide)

theorem exec_encode_accessible {v : Byte} {a : Nat} {s : State} (hready : HostReady s)
    (hacc : Accessible s.cfg a 8) :
    exec (.encode v a) s = .next { s with
      mem := writeAll s.mem a (encodeByte s.cfg v).toList, result := some ⟨.ok, 0⟩ } := by
  rw [exec_encode hready, writeBytes_accessible hacc]
  rfl

theorem exec_encode_faults {v : Byte} {a k : Nat} {s : State} (hready : HostReady s) (hk : k < 8)
    (hacc : Accessible s.cfg a k) (hbad : inWindow s.cfg (a + k) = false) :
    exec (.encode v a) s = .fault (.memRange (a + k) .write) := by
  rw [exec_encode hready, writeBytes_faults hk hacc hbad]
  rfl

/-- The slot area an encoded byte is written to reads as its slots. -/
theorem writeAll_encodeByte_read {m : Memory} (hm : Memory.wf m) (p : Params) (v : Byte) (a : Nat)
    {i : Nat} (hi : i < 8) :
    (writeAll m a (encodeByte p v).toList).read (a + i) = bitSlot p (v.getLsbD i) := by
  have hlen : i < (encodeByte p v).toList.length := hi
  rw [writeAll_read_at hm hlen, Vector.getElem_toList, encodeByte_get p v hi]

/-- Settles O11: ENCODE writes a buffer of eight bytes, which reads as the slots inside and leaves memory
alone outside. -/
theorem encodeWritesTheSlots : Obligations.EncodeWritesTheSlots := by
  intro v a s hready
  refine ⟨fun hm hacc => ⟨_, exec_encode_accessible hready hacc, ?_, ?_⟩,
    fun k hk hacc hbad => exec_encode_faults hready hk hacc hbad⟩
  · exact fun i hi => writeAll_encodeByte_read hm s.cfg v a hi
  · rintro x (hbelow | habove)
    · exact writeAll_read_below _ hbelow
    · exact writeAll_read_above _ habove

/-! ## DECODE (R125) -/

theorem exec_decode {a : Nat} {s : State} (hready : HostReady s) :
    exec (.decode a) s = outcomeOf (readSlots a s >>= fun x =>
      pure (deliver .ok ((decodeByte s.cfg x).setWidth 16) s)) :=
  hostStep_ready hready rfl (by decide)

/-- An accessible slot area is read slot by slot. -/
theorem readSlots_get {s : State} {a : Nat} (hacc : Accessible s.cfg a 8) :
    ∃ x, readSlots a s = .ok x ∧ ∀ (i : Nat) (hi : i < 8), x[i] = s.mem.read (a + i) := by
  refine ⟨_, readSlots_accessible hacc, fun i hi => ?_⟩
  interval_cases i <;> rfl

/-- The slot area is walked as a buffer of eight bytes. -/
theorem readBytes_eq_readSlots (a : Nat) (s : State) :
    readBytes a 8 s = readSlots a s >>= fun x => pure x.toList := by
  simp only [readBytes, readSlots, bind_assoc, pure_bind, Nat.add_assoc]
  rfl

/-- A slot area faults at its first address outside the window (R61). -/
theorem readSlots_faults {s : State} {a k : Nat} (hk : k < 8) (hacc : Accessible s.cfg a k)
    (hbad : inWindow s.cfg (a + k) = false) : readSlots a s = .error (.memRange (a + k) .read) := by
  have hwalk := readBytes_faults hk hacc hbad
  rw [readBytes_eq_readSlots] at hwalk
  obtain herr | ⟨x, -, hpure⟩ := bind_eq_error.1 hwalk
  · exact herr
  · cases hpure

/-- Settles O12: the value is the decoded slot area, whose slots are the bytes of memory. -/
theorem decodeReadsTheSlots : Obligations.DecodeReadsTheSlots := by
  intro a s hready
  rw [exec_decode hready]
  refine ⟨fun hacc => ?_, fun k hk hacc hbad => ?_⟩
  · obtain ⟨x, hread, hget⟩ := readSlots_get hacc
    refine ⟨decodeByte s.cfg x, by rw [hread]; rfl, fun i hi => ?_⟩
    rw [decodeByte_getLsbD _ x hi, slotBit_eq_decide, hget i hi]
  · rw [readSlots_faults hk hacc hbad]
    rfl

end Sys2Proof.Machine
end

section
/-! SUPPORT. Proofs about the reset state machine (41_reset_fsm.md): the action of each state, what one RESET
request does and leaves unchanged, and the scheduled run of a bus reset as its polling host sees it. -/

namespace Sys2Proof.Machine

/-! ## The action of each state (R141 to R145) -/

/-- Settles O15: the action of `INIT` with its record updates written out. -/
theorem resetInitAction : Obligations.ResetInitAction := by
  intro s h
  rw [resetStep, h]
  rfl

/-- Settles O16: the action of `SEND_PRESENCE` with its record updates written out. -/
theorem resetPulseAction : Obligations.ResetPulseAction := by
  intro s h
  rw [resetStep, h]
  rfl

/-- Settles O19: the action of `FINALIZE` with its record updates written out. -/
theorem resetFinalizeAction : Obligations.ResetFinalizeAction := by
  intro s h
  rw [resetStep, h]
  rfl

theorem resetStep_await {s : State} (h : s.ctx.resetState = .await) : resetStep s =
    (.wait, if exchDone s then s.setCtx { s.ctx with resetState := .check } else s) := by
  rw [resetStep, h]
  rfl

theorem transferStep_await (args : TransferArgs) {s : State} (h : s.ctx.transferState = .await) :
    transferStep args s =
      .ok (.wait, if exchDone s then s.setCtx { s.ctx with transferState := .consume } else s) := by
  rw [transferStep, h]
  rfl

/-- Settles O17: both states branch on the end of the exchange alone. -/
theorem awaitStatesPollTheExchange : Obligations.AwaitStatesPollTheExchange := by
  intro args s
  constructor
  · intro hend
    have hdone : exchDone s = true := (exchDone_iff s).2 hend
    refine ⟨fun hst => ?_, fun hst => ?_⟩
    · rw [resetStep_await hst, if_pos hdone]
      rfl
    · rw [transferStep_await args hst, if_pos hdone]
      rfl
  · intro hbusy hearly
    have hdone : ¬ exchDone s = true := by
      rw [exchDone_iff, hbusy]
      exact fun h => h.elim nofun (BitVec.not_le.2 hearly)
    refine ⟨fun hst => ?_, fun hst => ?_⟩
    · rw [resetStep_await hst, if_neg hdone]
    · rw [transferStep_await args hst, if_neg hdone]

/-- The first byte of a read of `ctx.rx` and the draw count after it: the byte received from an idle
substrate, a free value from a busy one (R77). -/
theorem rx_read_eq {s : State} {echo : Byte} {n : Nat}
    (hidle : s.sub.busy = false → echo = s.ctx.rx[0] ∧ n = s.draws)
    (hbusy : s.sub.busy = true → echo = (Config.timedOutRx s.draws)[0] ∧ n = s.draws + 1) :
    (rxSeen s)[0] = echo ∧ rxDrawn s = s.setDraws n := by
  cases hb : s.sub.busy with
  | false =>
    obtain ⟨rfl, rfl⟩ := hidle hb
    rw [rxSeen_idle hb, rxDrawn_idle hb]
    exact ⟨rfl, rfl⟩
  | true =>
    obtain ⟨rfl, rfl⟩ := hbusy hb
    rw [rxSeen, rxDrawn, if_pos hb, if_pos hb]
    exact ⟨rfl, rfl⟩

/-- Settles O18: the branches of `CHECK` on the byte read and the budget left. -/
theorem resetCheckAction : Obligations.ResetCheckAction := by
  intro s echo n hst hidle hbusy
  obtain ⟨hecho, hdrawn⟩ := rx_read_eq hidle hbusy
  simp only [resetStep, hst, resetCheck, hecho, hdrawn, State.setDraws_cfg, State.setDraws_ctx]
  refine ⟨fun hseen => ?_, fun hfail hmore => ?_, fun hfail hlast => ?_⟩
  · rw [if_pos hseen]
    rfl
  · rw [if_neg (not_not.2 hfail), if_pos hmore]
    rfl
  · rw [if_neg (not_not.2 hfail), if_neg (BitVec.not_lt.2 hlast)]
    rfl

/-- Only a pulse starts an exchange (R142). -/
theorem resetStep_exchange {s : State} (h : s.ctx.resetState ≠ .sendPresence) :
    (resetStep s).2.ctx.lastOperationTimestamp = s.ctx.lastOperationTimestamp
      ∧ (resetStep s).2.sub.busy = s.sub.busy ∧ (resetStep s).2.sub.rxPending = s.sub.rxPending := by
  obtain ⟨-, heq⟩ | ⟨hst, -⟩ | ⟨-, -, heq⟩ | ⟨-, -, heq⟩ | ⟨-, -, heq⟩ | ⟨-, -, -, heq⟩ |
    ⟨-, -, -, heq⟩ | ⟨-, heq⟩ := resetStep_cases s
  case inr.inl => exact absurd hst h
  all_goals simp [heq]

/-! ## One RESET request (R146) -/

/-- What a RESET that is allowed leaves: the action of one state under owner RESET, and its result. -/
def pollReset (s : State) : State :=
  endPoll (resetStep (setOwner .reset s)).1 (resetStep (setOwner .reset s)).2

theorem endPoll_eq (st : Status) (s : State) : endPoll st s = { s with
    ctx := { s.ctx with owner := if st = .wait then s.ctx.owner else .idle }
    result := some ⟨st, 0⟩ } := by
  cases st <;> rfl

/-- An owner that lets a RESET in is not a search (R271). -/
theorem ne_search_of_resettable {o : Owner} (h : o = .idle ∨ o = .reset) : o ≠ .search := by
  obtain rfl | rfl := h <;> nofun

theorem exec_reset {s : State} (hf : s.fault = none)
    (howner : s.ctx.owner = .idle ∨ s.ctx.owner = .reset) : exec .reset s = .next (pollReset s) :=
  hostStep_allowed hf (ne_search_of_resettable howner) rfl (decide_eq_true howner)

/-- A legal request that its owner's column forbids faults before its own step (R271). -/
theorem hostStep_overlap {op : Byte} {s : State} {body : Except Fault State} (hready : HostReady s)
    (hl : legalOp s.cfg op = true) (ha : ownerAllows op s.ctx.owner = false) :
    hostStep op s body = .fault (.overlap op s.ctx.owner) := by
  obtain ⟨hfault, howner⟩ := hready
  simp [hostStep, hfault, howner, hl, ha]

/-- Settles O20: an allowed RESET is one reset step with its result, and the owner's column of a transfer
forbids it. -/
theorem resetRequestRunsOneState : Obligations.ResetRequestRunsOneState := by
  intro s hf
  refine ⟨fun howner => ⟨_, _, rfl, ?_⟩, fun howner => ?_⟩
  · have hkept := resetStep_owner (setOwner .reset s)
    rw [exec_reset hf howner, pollReset, endPoll_eq, hkept]
    rfl
  · have hover : exec .reset s = .fault (.overlap 0x02 s.ctx.owner) :=
      hostStep_overlap ⟨hf, by simp [howner]⟩ rfl (by simp [howner])
    rw [hover, howner]

/-- A reset step leaves all of the transmit buffer but its first entry (R142). -/
theorem resetStep_tx_other (s : State) {i : Nat} (hi : i < 8) (h0 : i ≠ 0) :
    (resetStep s).2.ctx.tx[i] = s.ctx.tx[i] := by
  simp only [resetStep_tx]
  split
  · exact Vector.getElem_set_ne _ _ h0.symm
  · rfl

/-- Settles O21: the frame of a reset step, of which only a pulse sends; the poll around it writes the
owner and the result. -/
theorem resetRequestFrame : Obligations.ResetRequestFrame := by
  intro s t h
  cases hostStep_body h
  rw [endPoll_eq]
  refine ⟨resetStep_cfg _, resetStep_srch _, resetStep_now _, resetStep_fault _, resetStep_env _,
    fun x => congrArg (Memory.read · x) (resetStep_mem _), resetStep_transferState _,
    resetStep_commandSource _, resetStep_commandCursor _, resetStep_commandRemaining _,
    resetStep_dataCursor _, resetStep_dataRemaining _, resetStep_readSkip _, resetStep_rx _,
    fun i hi h0 => resetStep_tx_other _ hi h0, fun hst => ⟨?_, resetStep_exchange hst⟩⟩
  exact (resetStep_tx _).trans (if_neg hst)

/-! ## Runs whose every step leaves `WAIT` as the result -/

/-- `n` steps lead from the first state to the second, each leaving the host the result `WAIT`. -/
inductive WaitSteps : Nat → State → State → Prop
  | refl (s : State) : WaitSteps 0 s s
  | head {n : Nat} {s u t : State} (hstep : step s = .next u) (hwait : u.result = some ⟨.wait, 0⟩)
      (hrest : WaitSteps n u t) : WaitSteps (n + 1) s t

/-- A run of a machine goes on from its first step. -/
theorem run_of_step {M : Host.Core} {s u : M.State} (h : M.step s = .next u) (k : Nat) :
    M.run (k + 1) s = M.run k u := by
  rw [Host.Core.run, h]

/-- The same of the system's own step. -/
theorem core_run_of_step {s u : State} (h : step s = .next u) (k : Nat) : core.run (k + 1) s = core.run k u :=
  run_of_step (M := core) h k

theorem WaitSteps.run_add {n : Nat} {s t : State} (h : WaitSteps n s t) (k : Nat) :
    core.run (n + k) s = core.run k t := by
  induction h with
  | refl s => rw [Nat.zero_add]
  | head hstep _ _ ih => rw [Nat.succ_add, core_run_of_step hstep, ih]

theorem WaitSteps.run_wait {n : Nat} {s t : State} (h : WaitSteps n s t) {k : Nat} (h0 : 0 < k)
    (hk : k ≤ n) : ∃ u, core.run k s = .next u ∧ u.result = some ⟨.wait, 0⟩ := by
  induction h generalizing k with
  | refl s => omega
  | head hstep hwait _ ih =>
    obtain ⟨k, rfl⟩ := Nat.exists_eq_add_one.2 h0
    rw [core_run_of_step hstep]
    obtain rfl | hpos := Nat.eq_zero_or_pos k
    · exact ⟨_, rfl, hwait⟩
    · exact ih hpos (by omega)

theorem WaitSteps.trans {m n : Nat} {s u t : State} (h : WaitSteps m s u) (h' : WaitSteps n u t) :
    WaitSteps (m + n) s t := by
  induction h with
  | refl s => rwa [Nat.zero_add]
  | head hstep hwait _ ih => rw [Nat.succ_add]; exact .head hstep hwait (ih h')

/-! ## A bus reset as its polling host sees it (R147)

The host's only request is the packed word of RESET, and every exchange is completed before the next poll. -/

@[simp] theorem attemptEvents_length (w : Nat) (echo : Slots) : (attemptEvents w echo).length = 4 := rfl

theorem decode_encode_reset (p : Params) : decode p (encode p .reset) = .ok .reset :=
  decodeInvertsEncode p .reset rfl

/-- A RESET at the head of the outside's list is polled, and its result handed to the host. -/
theorem step_pollReset {s : State} {es : List Event} (hf : s.fault = none)
    (howner : s.ctx.owner = .idle ∨ s.ctx.owner = .reset)
    (he : s.env = .request (encode s.cfg .reset) :: es) : step s = .next (pollReset (s.setEnv es)) := by
  have hexec : exec .reset (s.setEnv es) = .next (pollReset (s.setEnv es)) := exec_reset hf howner
  rw [step_request ⟨hf, ne_search_of_resettable howner⟩ he, runRequest, State.setEnv_cfg,
    decode_encode_reset]
  exact congrArg (commit (s.setEnv es)) hexec

theorem pollReset_eq {s t : State} {st : Status} (h : resetStep (setOwner .reset s) = (st, t)) :
    pollReset s = endPoll st t := by
  rw [pollReset, h]

/-- A state inside a bus reset, `r` next and `b` attempts left, after a poll that answered `WAIT`. -/
structure UnderReset (p : Params) (r : ResetState) (b : Nat) (es : List Event) (s : State) : Prop where
  cfg : s.cfg = p
  fault : s.fault = none
  owner : s.ctx.owner = .reset
  state : s.ctx.resetState = r
  budget : s.ctx.resetRetryBudget.toNat = b
  result : s.result = some ⟨.wait, 0⟩
  env : s.env = es

/-- The substrate is idle and has received `e` in the first entry. -/
structure Heard (e : Slots) (s : State) : Prop where
  idle : s.sub.busy = false
  echo : s.ctx.rx[0] = e[0]

/-- A bus reset has answered its final status with `b` attempts left, the context idle again. -/
structure ResetEnded (b : Nat) (es : List Event) (s : State) : Prop where
  result : s.result = some ⟨if b = 0 then .noDevice else .ok, 0⟩
  owner : s.ctx.owner = .idle
  state : s.ctx.resetState = .init
  budget : s.ctx.resetRetryBudget.toNat = b
  baud : s.ctx.baud = .transfer
  env : s.env = es

section
variable {p : Params} {b : Nat} {es : List Event} {s : State} {e : Slots}

/-- A poll under a bus reset is one reset step: the owner is RESET already. -/
theorem UnderReset.poll {r : ResetState} {st : Status} {t : State}
    (h : UnderReset p r b (.request (encode p .reset) :: es) s)
    (hstep : resetStep (s.setEnv es) = (st, t)) : step s = .next (endPoll st t) := by
  have hself : setOwner .reset (s.setEnv es) = s.setEnv es := by rw [← h.owner]; rfl
  rw [step_pollReset h.fault (.inr h.owner) (h.cfg ▸ h.env), pollReset_eq (hself.symm ▸ hstep)]

/-- The first poll, from an idle machine: the budget is loaded (R141). -/
theorem UnderReset.start (hf : s.fault = none) (howner : s.ctx.owner = .idle)
    (hst : s.ctx.resetState = .init) (he : s.env = .request (encode s.cfg .reset) :: es) :
    ∃ t, step s = .next t ∧ UnderReset s.cfg .sendPresence s.cfg.resetAttempts.toNat es t := by
  have hinit := resetInitAction (setOwner .reset (s.setEnv es)) hst
  refine ⟨_, step_pollReset hf (.inl howner) he, ?_⟩
  rw [pollReset_eq hinit]
  exact ⟨rfl, hf, rfl, rfl, rfl, rfl, rfl⟩

/-- The pulse arms a receive of one byte (R142). -/
theorem UnderReset.pulse (h : UnderReset p .sendPresence b (.request (encode p .reset) :: es) s) :
    ∃ t, step s = .next t ∧ UnderReset p .await b es t ∧ t.sub.busy = true ∧ t.sub.rxPending = 1 :=
  ⟨_, h.poll (resetPulseAction (s.setEnv es) h.state),
    { h with state := rfl, result := rfl, env := rfl }, rfl, rfl⟩

/-- The completion brings the echo (R72). -/
theorem UnderReset.complete (h : UnderReset p .await b (.complete e :: es) s) (hbusy : s.sub.busy = true)
    (harmed : s.sub.rxPending = 1) :
    ∃ t, step s = .next t ∧ UnderReset p .await b es t ∧ Heard e t := by
  refine ⟨_, step_complete h.fault h.env hbusy, { h with env := rfl }, rfl, ?_⟩
  exact (mergeRx_get s.ctx.rx e s.sub.rxPending 0 (by decide)).trans (if_pos (harmed ▸ Nat.one_pos))

/-- The wait ends at once: the substrate is idle (R143). -/
theorem UnderReset.wait (h : UnderReset p .await b (.request (encode p .reset) :: es) s)
    (he : Heard e s) :
    ∃ t, step s = .next t ∧ UnderReset p .check b es t ∧ Heard e t := by
  have hdone : exchDone (s.setEnv es) = true := (exchDone_iff _).2 (.inl he.idle)
  have hact := resetStep_await (s := s.setEnv es) h.state
  rw [if_pos hdone] at hact
  exact ⟨_, h.poll hact, { h with state := rfl, result := rfl, env := rfl }, he.idle, he.echo⟩

/-- The check of a failed attempt with more attempts left (R144). -/
theorem UnderReset.retry (h : UnderReset p .check (b + 1) (.request (encode p .reset) :: es) s)
    (he : Heard e s) (hfail : e[0] = p.resetByte) (hb : 1 ≤ b) :
    ∃ t, step s = .next t ∧ UnderReset p .sendPresence b es t := by
  have hbudget := h.budget
  obtain ⟨-, hretry, -⟩ := resetCheckAction (s.setEnv es) e[0] s.draws h.state
    (fun _ => ⟨he.echo.symm, rfl⟩) (fun hbusy => absurd (he.idle.symm.trans hbusy) nofun)
  have hmore : 1 < s.ctx.resetRetryBudget := by bv_omega
  have hact := hretry (hfail.trans (congrArg Params.resetByte h.cfg.symm)) hmore
  refine ⟨_, h.poll hact, { h with state := rfl, budget := ?_, result := rfl, env := rfl }⟩
  show (s.ctx.resetRetryBudget - 1).toNat = b
  bv_omega

/-- The check that ends the attempts: presence seen, or no attempt left (R144). -/
theorem UnderReset.conclude (h : UnderReset p .check b (.request (encode p .reset) :: es) s)
    (he : Heard e s) (hlast : e[0] = p.resetByte → b ≤ 1) :
    ∃ t, step s = .next t ∧ UnderReset p .finalize (if e[0] = p.resetByte then 0 else b) es t := by
  have hbudget := h.budget
  obtain ⟨hseen, -, hspent⟩ := resetCheckAction (s.setEnv es) e[0] s.draws h.state
    (fun _ => ⟨he.echo.symm, rfl⟩) (fun hbusy => absurd (he.idle.symm.trans hbusy) nofun)
  have hbyte : s.cfg.resetByte = p.resetByte := congrArg Params.resetByte h.cfg
  split_ifs with hecho
  · have hone : s.ctx.resetRetryBudget ≤ 1 := by have := hlast hecho; bv_omega
    have hact := hspent (hecho.trans hbyte.symm) hone
    exact ⟨_, h.poll hact, { h with state := rfl, budget := rfl, result := rfl, env := rfl }⟩
  · have hact := hseen (hbyte.symm ▸ hecho)
    exact ⟨_, h.poll hact, { h with state := rfl, result := rfl, env := rfl }⟩

/-- One attempt up to its check: the pulse, its echo and the wait. -/
theorem UnderReset.attempt
    (h : UnderReset p .sendPresence b (attemptEvents (encode p .reset) e ++ es) s) :
    ∃ t, WaitSteps 3 s t ∧ UnderReset p .check b (.request (encode p .reset) :: es) t ∧ Heard e t := by
  obtain ⟨s1, hs1, h1, hbusy, harmed⟩ := h.pulse
  obtain ⟨s2, hs2, h2, he2⟩ := h1.complete hbusy harmed
  obtain ⟨s3, hs3, h3, he3⟩ := h2.wait he2
  have hsteps := WaitSteps.head hs1 h1.result (.head hs2 h2.result (.head hs3 h3.result (.refl s3)))
  exact ⟨s3, hsteps, h3, he3⟩

/-- The poll that ends the reset: the budget decides the status (R145). -/
theorem UnderReset.finish (h : UnderReset p .finalize b (.request (encode p .reset) :: es) s) :
    ∃ t, step s = .next t ∧ ResetEnded b es t := by
  have hspent : s.ctx.resetRetryBudget = 0 ↔ b = 0 := by rw [← h.budget]; exact BitVec.toNat_inj.symm
  have hact := resetFinalizeAction (s.setEnv es) h.state
  have hstatus : (if (s.setEnv es).ctx.resetRetryBudget = 0 then Status.noDevice else .ok)
      = if b = 0 then .noDevice else .ok := if_congr hspent rfl rfl
  have hfinal : (if b = 0 then Status.noDevice else .ok) ≠ .wait := by split <;> nofun
  rw [hstatus] at hact
  exact ⟨_, (h.poll hact).trans (congrArg _ (endPoll_final hfinal _)), rfl, rfl, rfl, h.budget, rfl, rfl⟩

end

section
variable {p : Params} {es : List Event}

/-- Failed attempts cost one budget unit each (R144). -/
theorem UnderReset.failures {fails : List Slots} (hfails : ∀ e ∈ fails, e[0] = p.resetByte) {b : Nat}
    (hb : 1 ≤ b) : ∀ {s : State},
      UnderReset p .sendPresence (b + fails.length)
        (fails.flatMap (attemptEvents (encode p .reset)) ++ es) s →
      ∃ t, WaitSteps (fails.flatMap (attemptEvents (encode p .reset))).length s t
        ∧ UnderReset p .sendPresence b es t := by
  induction fails with
  | nil => exact fun {s} h => ⟨s, .refl s, h⟩
  | cons e fails ih =>
    intro s h
    obtain ⟨he, hrest⟩ := List.forall_mem_cons.1 hfails
    rw [List.flatMap_cons, List.append_assoc] at h
    obtain ⟨s3, hs3, h3, hheard⟩ := h.attempt
    obtain ⟨s4, hs4, h4⟩ := UnderReset.retry (b := b + fails.length) h3 hheard he (by omega)
    obtain ⟨t, hst, ht⟩ := ih hrest h4
    refine ⟨t, ?_, ht⟩
    have hsteps := hs3.trans (.head hs4 h4.result hst)
    rw [List.flatMap_cons, List.length_append]
    rwa [Nat.add_comm _ 1, ← Nat.add_assoc] at hsteps

/-- The run of a whole reset: failed attempts within the budget, a last attempt that ends them, and the
poll that answers (R147). -/
theorem resetRun {s : State} {fails : List Slots} {last : Slots}
    (hf : s.fault = none) (howner : s.ctx.owner = .idle) (hst : s.ctx.resetState = .init)
    {b : Nat} (hb : 1 ≤ b) (hattempts : s.cfg.resetAttempts.toNat = b + fails.length)
    (hfails : ∀ e ∈ fails, e[0] = s.cfg.resetByte) (hlast : last[0] = s.cfg.resetByte → b ≤ 1)
    (he : s.env = resetEvents (encode s.cfg .reset) (fails ++ [last])
      ++ .request (encode s.cfg .reset) :: es) :
    ∃ t u, WaitSteps (resetEvents (encode s.cfg .reset) (fails ++ [last])).length s t
      ∧ step t = .next u ∧ ResetEnded (if last[0] = s.cfg.resetByte then 0 else b) es u := by
  simp only [resetEvents, List.flatMap_append, List.flatMap_singleton, List.cons_append,
    List.append_assoc] at he
  obtain ⟨s1, hs1, h1⟩ := UnderReset.start hf howner hst he
  rw [hattempts] at h1
  obtain ⟨s2, hs2, h2⟩ := h1.failures hfails hb
  obtain ⟨s3, hs3, h3, hheard⟩ := h2.attempt
  obtain ⟨t, ht, h4⟩ := h3.conclude hheard hlast
  obtain ⟨u, hu, hended⟩ := h4.finish
  refine ⟨t, u, ?_, hu, hended⟩
  have hsteps := WaitSteps.head hs1 h1.result (hs2.trans (hs3.trans (.head ht h4.result (.refl t))))
  simpa [resetEvents] using hsteps

end

/-- Settles O22: with as many echoes of the reset byte as attempts, the last one finds a budget of 1. -/
theorem resetGivesUpAfterExactlyItsAttempts : Obligations.ResetGivesUpAfterExactlyItsAttempts := by
  intro s echoes es w ⟨hfault, _⟩ howner hst hwf hlen hechoes he
  have hpos : 1 ≤ s.cfg.resetAttempts.toNat := one_le_resetAttempts hwf
  obtain rfl | ⟨fails, last, rfl⟩ := List.eq_nil_or_concat' echoes
  · exact absurd hlen (Nat.ne_of_lt hpos)
  · obtain ⟨hfails, hlast⟩ := List.forall_mem_append.1 hechoes
    rw [List.forall_mem_singleton] at hlast
    rw [List.length_append, List.length_singleton, Nat.add_comm] at hlen
    obtain ⟨t, u, hwait, hstep, hended⟩ := resetRun hfault howner hst (Nat.le_refl 1) hlen.symm hfails
      (fun _ => Nat.le_refl 1) he
    rw [if_pos hlast] at hended
    refine ⟨fun _ h0 hk => hwait.run_wait h0 hk, u, ?_, hended.result, hended.owner, hended.state,
      BitVec.eq_of_toNat_eq hended.budget, hended.baud, hended.env⟩
    rw [hwait.run_add, core_run_of_step hstep]
    rfl

/-- Settles O23: an echo other than the reset byte ends the attempts with the budget that is left. -/
theorem resetSucceedsOnTheAttemptThatSeesPresence :
    Obligations.ResetSucceedsOnTheAttemptThatSeesPresence := by
  intro s fails seen es w ⟨hfault, _⟩ howner hst hlt hfails hseen he
  obtain ⟨t, u, hwait, hstep, hended⟩ := resetRun hfault howner hst
    (b := s.cfg.resetAttempts.toNat - fails.length) (by omega) (by omega) hfails
    (fun hecho => absurd hecho hseen) he
  rw [if_neg hseen] at hended
  have hleft : s.cfg.resetAttempts.toNat - fails.length ≠ 0 := by omega
  refine ⟨u, ?_, hended.result.trans (by rw [if_neg hleft]), hended.owner, hended.state, hended.budget,
    hended.baud, hended.env⟩
  rw [hwait.run_add, core_run_of_step hstep]
  rfl

end Sys2Proof.Machine
end

section
/-! SUPPORT. Proofs about the transfer state machine (42_transfer_fsm.md): the action of each state, what one
SEND request does and leaves unchanged, and the scheduled run of a send past its SETUP. -/

namespace Sys2Proof.Machine

/-! ## The action of SETUP (R171) -/

theorem transferStep_setup (args : TransferArgs) {s : State} (h : s.ctx.transferState = .setup) :
    transferStep args s = .ok (transferSetup args s) := by
  rw [transferStep, h]

/-- Settles O24: the status of the reset step decides, and a reset that ends leaves its machine at `INIT`. -/
theorem transferSetupAction : Obligations.TransferSetupAction := by
  intro args s t st hst hreset
  have hact : transferStep args s = .ok (transferSetup args s) := transferStep_setup args hst
  rw [hact, transferSetup, hreset]
  refine ⟨fun hwait => ?_, fun hnone => ⟨?_, ?_, ?_⟩, fun hok => ?_⟩
  · rw [hwait]
  · rw [hnone]
  · have hkept := resetStep_transferState s
    rw [hreset] at hkept
    exact hkept.trans hst
  · obtain ⟨hinit, -, -⟩ := resetStep_ends (s := s) (by rw [hreset, hnone]; nofun)
    rwa [hreset] at hinit
  · rw [hok]
    rfl

/-! ## The action of WRITE_BYTE (R172, R176) -/

theorem transferStep_writeByte (args : TransferArgs) {s : State}
    (h : s.ctx.transferState = .writeByte) : transferStep args s = transferWriteByte s := by
  rw [transferStep, h]

theorem cmdByte_host {s : State} (h : s.ctx.commandSource = .host) :
    cmdByte s = memRead s.ctx.commandCursor s := by
  rw [cmdByte, h]

theorem cmdByte_searchConst {s : State} (h : s.ctx.commandSource = .searchConst) :
    cmdByte s = .ok s.cfg.searchRomCmd := by
  rw [cmdByte, h]

/-- The next command byte, from either source. -/
theorem cmdByte_eq_ok {s : State} {b : Byte}
    (hhost : s.ctx.commandSource = .host →
      inWindow s.cfg s.ctx.commandCursor = true ∧ b = s.mem.read s.ctx.commandCursor)
    (hconst : s.ctx.commandSource = .searchConst → b = s.cfg.searchRomCmd) : cmdByte s = .ok b := by
  cases hsrc : s.ctx.commandSource with
  | host => rw [cmdByte_host hsrc, memRead_eq_ok]; exact hhost hsrc
  | searchConst => rw [cmdByte_searchConst hsrc, hconst hsrc]

/-- Settles O25: a byte is left or not, and the byte's fetch decides between the exchange and the fault. -/
theorem transferWriteByteAction : Obligations.TransferWriteByteAction := by
  intro args s hst
  rw [transferStep_writeByte args hst, transferWriteByte]
  refine ⟨fun hnone => ?_, fun hleft hsrc hout => ?_, fun b hleft hhost hconst => ?_⟩
  · rw [if_pos hnone]
    rfl
  · rw [if_neg hleft, cmdByte_host hsrc, memRead_eq_error.2 ⟨hout, rfl⟩]
    rfl
  · rw [if_neg hleft, cmdByte_eq_ok hhost hconst]
    rfl

/-! ## The action of CONSUME (R174) -/

theorem transferStep_consume (args : TransferArgs) {s : State} (h : s.ctx.transferState = .consume) :
    transferStep args s = captureByte (decodeByte s.cfg (rxSeen s)) (rxDrawn s) >>= fun u =>
      .ok (.wait, u.setCtx { u.ctx with transferState := .writeByte }) := by
  rw [transferStep, h]
  rfl

/-- The slots a read of `ctx.rx` sees and the draw count after it: the received ones from an idle substrate,
a free value from a busy one (R77). -/
theorem rx_slots_eq {s : State} {x : Slots} {n : Nat}
    (hidle : s.sub.busy = false → x = s.ctx.rx ∧ n = s.draws)
    (hbusy : s.sub.busy = true → x = Config.timedOutRx s.draws ∧ n = s.draws + 1) :
    rxSeen s = x ∧ rxDrawn s = s.setDraws n := by
  cases hb : s.sub.busy with
  | false =>
    obtain ⟨rfl, rfl⟩ := hidle hb
    exact ⟨rxSeen_idle hb, rxDrawn_idle hb⟩
  | true =>
    obtain ⟨rfl, rfl⟩ := hbusy hb
    exact ⟨if_pos hb, if_pos hb⟩

theorem captureByte_stores {d : Byte} {s : State} (h : s.ctx.readSkip = 0 ∧ 0 < s.ctx.dataRemaining)
    (hin : inWindow s.cfg s.ctx.dataCursor = true) :
    captureByte d s = .ok ((s.setMem (s.mem.write s.ctx.dataCursor d)).setCtx { s.ctx with
      dataCursor := s.ctx.dataCursor + 1, dataRemaining := s.ctx.dataRemaining - 1 }) := by
  rw [captureByte, if_pos h, memWrite_eq_ok.2 ⟨hin, rfl⟩]
  rfl

theorem captureByte_faults {d : Byte} {s : State} (h : s.ctx.readSkip = 0 ∧ 0 < s.ctx.dataRemaining)
    (hout : inWindow s.cfg s.ctx.dataCursor = false) :
    captureByte d s = .error (.memRange s.ctx.dataCursor .write) := by
  rw [captureByte, if_pos h, memWrite_eq_error.2 ⟨hout, rfl⟩]
  rfl

theorem captureByte_counts {d : Byte} {s : State} (h : ¬ (s.ctx.readSkip = 0 ∧ 0 < s.ctx.dataRemaining))
    (hskip : s.ctx.readSkip ≠ s.cfg.skipNever) :
    captureByte d s = .ok (s.setCtx { s.ctx with readSkip := s.ctx.readSkip - 1 }) :=
  (if_neg h).trans (if_pos hskip)

theorem captureByte_ignores {d : Byte} {s : State} (h : ¬ (s.ctx.readSkip = 0 ∧ 0 < s.ctx.dataRemaining))
    (hskip : s.ctx.readSkip = s.cfg.skipNever) : captureByte d s = .ok s :=
  (if_neg h).trans (if_neg (not_not.2 hskip))

/-- Settles O26: the branches of the capture on the slots read. -/
theorem transferConsumeAction : Obligations.TransferConsumeAction := by
  intro args s x n hst hidle hbusy
  obtain ⟨hseen, hdrawn⟩ := rx_slots_eq hidle hbusy
  rw [transferStep_consume args hst, hseen, hdrawn]
  refine ⟨fun hzero hroom hin => ?_, fun hzero hroom hout => ?_, fun hfull hskip => ?_,
    fun hfull hskip => ?_⟩
  · rw [captureByte_stores (s := s.setDraws n) ⟨hzero, hroom⟩ hin]
    rfl
  · rw [captureByte_faults (s := s.setDraws n) ⟨hzero, hroom⟩ hout]
    rfl
  · rw [captureByte_counts (s := s.setDraws n) hfull hskip]
    rfl
  · rw [captureByte_ignores (s := s.setDraws n) hfull hskip]
    rfl

/-! ## One SEND request (R175) -/

/-- An owner that lets a SEND in is not a search (R271). -/
theorem ne_search_of_sendable {o : Owner} (h : o = .idle ∨ o = .transfer) : o ≠ .search := by
  obtain rfl | rfl := h <;> nofun

/-- A SEND that is allowed is one transfer step under owner TRANSFER, and its result. -/
theorem exec_send {a la b lb : Nat} {skip : Byte} {s : State} (hf : s.fault = none)
    (howner : s.ctx.owner = .idle ∨ s.ctx.owner = .transfer) :
    exec (.send a la b lb skip) s =
      outcomeOf (transferStep ⟨.host, a, la, b, lb, skip⟩ (setOwner .transfer s) >>= fun r =>
        .ok (endPoll r.1 r.2)) :=
  hostStep_allowed hf (ne_search_of_sendable howner) rfl (decide_eq_true howner)

theorem exec_send_next {a la b lb : Nat} {skip : Byte} {s t : State} {st : Status} (hf : s.fault = none)
    (howner : s.ctx.owner = .idle ∨ s.ctx.owner = .transfer)
    (hstep : transferStep ⟨.host, a, la, b, lb, skip⟩ (setOwner .transfer s) = .ok (st, t)) :
    exec (.send a la b lb skip) s = .next (endPoll st t) := by
  rw [exec_send hf howner, hstep]
  rfl

theorem exec_send_fault {a la b lb : Nat} {skip : Byte} {s : State} {r : Fault} (hf : s.fault = none)
    (howner : s.ctx.owner = .idle ∨ s.ctx.owner = .transfer)
    (hstep : transferStep ⟨.host, a, la, b, lb, skip⟩ (setOwner .transfer s) = .error r) :
    exec (.send a la b lb skip) s = .fault r := by
  rw [exec_send hf howner, hstep]
  rfl

/-- Settles O27: an allowed SEND is one transfer step with its result or its fault, and the owner's column of
a reset forbids it. -/
theorem sendRequestRunsOneState : Obligations.SendRequestRunsOneState := by
  intro a la b lb skip s hf
  refine ⟨fun howner => ⟨fun st t hstep => ?_, fun r hstep => ?_⟩, fun howner => ?_⟩
  · obtain ⟨-, -, -, -, -, -, hkept, -⟩ := transferStep_frame hstep
    have hnext : exec (.send a la b lb skip) s = .next (endPoll st t) := exec_send_next hf howner hstep
    rw [hnext, endPoll_eq, hkept]
  · exact exec_send_fault hf howner hstep
  · have hover : exec (.send a la b lb skip) s = .fault (.overlap 0x03 s.ctx.owner) :=
      hostStep_overlap ⟨hf, by simp [howner]⟩ rfl (by simp [howner])
    rw [hover, howner]

/-- A capture answers a state when the byte it stores, if it stores one, is accessible (R174). -/
theorem captureByte_completes (d : Byte) {s : State}
    (hin : s.ctx.readSkip = 0 → 0 < s.ctx.dataRemaining → inWindow s.cfg s.ctx.dataCursor = true) :
    ∃ t, captureByte d s = .ok t := by
  by_cases hroom : s.ctx.readSkip = 0 ∧ 0 < s.ctx.dataRemaining
  · exact ⟨_, captureByte_stores hroom (hin hroom.1 hroom.2)⟩
  · by_cases hskip : s.ctx.readSkip = s.cfg.skipNever
    · exact ⟨_, captureByte_ignores hroom hskip⟩
    · exact ⟨_, captureByte_counts hroom hskip⟩

/-- A transfer step answers a state when the byte its state moves is accessible (R172, R174). -/
theorem transferStep_completes (args : TransferArgs) {s : State}
    (hread : s.ctx.transferState = .writeByte → s.ctx.commandRemaining ≠ 0 →
      s.ctx.commandSource = .host → inWindow s.cfg s.ctx.commandCursor = true)
    (hwrite : s.ctx.transferState = .consume → s.ctx.readSkip = 0 → 0 < s.ctx.dataRemaining →
      inWindow s.cfg s.ctx.dataCursor = true) :
    ∃ st t, transferStep args s = .ok (st, t) := by
  cases hst : s.ctx.transferState with
  | setup => exact ⟨_, _, transferStep_setup args hst⟩
  | writeByte =>
    obtain ⟨hdone, -, hsends⟩ := transferWriteByteAction args s hst
    by_cases hleft : s.ctx.commandRemaining = 0
    · exact ⟨_, _, hdone hleft⟩
    · cases hsrc : s.ctx.commandSource with
      | host => exact ⟨_, _, hsends _ hleft (fun _ => ⟨hread hst hleft hsrc, rfl⟩) (by simp [hsrc])⟩
      | searchConst => exact ⟨_, _, hsends _ hleft (by simp [hsrc]) fun _ => rfl⟩
  | await => exact ⟨_, _, transferStep_await args hst⟩
  | consume =>
    obtain ⟨u, hu⟩ := captureByte_completes (decodeByte s.cfg (rxSeen s)) (s := rxDrawn s)
      (by simpa using hwrite hst)
    exact ⟨_, _, by rw [transferStep_consume args hst, hu, ok_bind]⟩

/-- Settles O28: the transfer step completes, and its status alone decides the owner. -/
theorem sendCompletes : Obligations.SendCompletes := by
  intro a la b lb skip s hf howner hread hwrite
  obtain ⟨st, t, hstep⟩ := transferStep_completes ⟨.host, a, la, b, lb, skip⟩
    (s := setOwner .transfer s) hread hwrite
  obtain ⟨hruns, -⟩ := sendRequestRunsOneState a la b lb skip s hf
  obtain ⟨hnext, -⟩ := hruns howner
  refine ⟨st, _, hnext st t hstep, rfl, ?_⟩
  cases st <;> simp

/-! ## What a SEND leaves unchanged -/

/-- A capture stores one byte, at the data cursor with skip 0 and room left, or none (R174). -/
theorem captureByte_mem {d : Byte} {s t : State} (h : captureByte d s = .ok t) :
    (∀ x, x ≠ s.ctx.dataCursor → t.mem.read x = s.mem.read x)
    ∧ (¬ (s.ctx.readSkip = 0 ∧ 0 < s.ctx.dataRemaining) → t.mem = s.mem) := by
  obtain ⟨hzero, hroom, -, rfl⟩ | ⟨-, -, rfl⟩ | ⟨-, -, rfl⟩ := captureByte_cases h
  · exact ⟨fun x hx => Memory.read_write_other _ _ hx, fun hfull => absurd ⟨hzero, hroom⟩ hfull⟩
  · exact ⟨fun _ _ => rfl, fun _ => rfl⟩
  · exact ⟨fun _ _ => rfl, fun _ => rfl⟩

/-- A capture writes no context register but the three of the data buffer (R174). -/
theorem captureByte_ctx {d : Byte} {s t : State} (h : captureByte d s = .ok t) :
    ∃ cursor left skip, t.ctx = { s.ctx with
      dataCursor := cursor, dataRemaining := left, readSkip := skip } := by
  obtain ⟨-, -, -, rfl⟩ | ⟨-, -, rfl⟩ | ⟨-, -, rfl⟩ := captureByte_cases h <;> exact ⟨_, _, _, rfl⟩

/-- The registers and the memory each state of the transfer machine writes (R171 to R174). -/
theorem transferStep_writes {args : TransferArgs} {s t : State} {st : Status}
    (h : transferStep args s = .ok (st, t)) :
    (s.ctx.transferState = .setup
      ∧ (t = (resetStep s).2 ∨ t = transferSnapshot args (resetStep s).2))
    ∨ (s.ctx.transferState = .writeByte ∧ t.mem = s.mem
      ∧ ∃ next cursor left slots start, t.ctx = { s.ctx with
          transferState := next, commandCursor := cursor, commandRemaining := left, tx := slots
          lastOperationTimestamp := start })
    ∨ (s.ctx.transferState = .await ∧ ∃ next, t = s.setCtx { s.ctx with transferState := next })
    ∨ (s.ctx.transferState = .consume ∧ t.sub = s.sub
      ∧ (∀ x, x ≠ s.ctx.dataCursor → t.mem.read x = s.mem.read x)
      ∧ (¬ (s.ctx.readSkip = 0 ∧ 0 < s.ctx.dataRemaining) → t.mem = s.mem)
      ∧ ∃ cursor left skip, t.ctx = { s.ctx with
          transferState := .writeByte, dataCursor := cursor, dataRemaining := left
          readSkip := skip }) := by
  obtain ⟨hst, -, -, rfl⟩ | ⟨hst, -, -, rfl⟩ | ⟨hst, -, -, rfl⟩ | ⟨hst, -, -, rfl⟩ |
    ⟨hst, -, -, b, -, rfl⟩ | ⟨hst, -, rfl | rfl⟩ | ⟨hst, -, u, hu, rfl⟩ := transferStep_cases h
  · exact .inl ⟨hst, .inl rfl⟩
  · exact .inl ⟨hst, .inl rfl⟩
  · exact .inl ⟨hst, .inr rfl⟩
  · exact .inr (.inl ⟨hst, rfl, _, _, _, _, _, rfl⟩)
  · exact .inr (.inl ⟨hst, rfl, _, _, _, _, _, rfl⟩)
  · exact .inr (.inr (.inl ⟨hst, _, rfl⟩))
  · exact .inr (.inr (.inl ⟨hst, _, rfl⟩))
  · obtain ⟨hother, hnone⟩ := captureByte_mem hu
    obtain ⟨-, -, hsub, -⟩ := captureByte_frame hu
    obtain ⟨cursor, left, skip, hctx⟩ := captureByte_ctx hu
    refine .inr (.inr (.inr ⟨hst, ?_, ?_, ?_, cursor, left, skip, ?_⟩))
    · simpa using hsub
    · simpa using hother
    · simpa using hnone
    · simp [hctx]

@[simp] theorem setOwner_mem (o : Owner) (s : State) : (setOwner o s).mem = s.mem := rfl
@[simp] theorem setOwner_sub (o : Owner) (s : State) : (setOwner o s).sub = s.sub := rfl

/-- Settles O29: the poll around the transfer step writes the owner and the result; what the step writes is
its state's own. -/
theorem sendRequestFrame : Obligations.SendRequestFrame := by
  intro a la b lb skip s t h
  obtain ⟨⟨st, u⟩, hstep, hpoll⟩ := bind_eq_ok.1 (hostStep_body h)
  cases hpoll
  obtain ⟨hcfg, hsrch, hnow, -, hfault, henv, -, hrx⟩ := transferStep_frame hstep
  rw [endPoll_eq]
  refine ⟨hcfg, hsrch, hnow, hfault, henv, hrx, ?_⟩
  have htx (i : Nat) (hi : i < 8) (h0 : i ≠ 0) :
      (resetStep (setOwner .transfer s)).2.ctx.tx[i] = s.ctx.tx[i] := resetStep_tx_other _ hi h0
  obtain ⟨hst, rfl | rfl⟩ | ⟨hst, hmem, _, _, _, _, _, hctx⟩ | ⟨hst, _, rfl⟩ |
    ⟨hst, hsub, hother, hnone, _, _, _, hctx⟩ := transferStep_writes hstep <;>
    replace hst : s.ctx.transferState = _ := hst
  · simpa [hst] using htx
  · simpa [hst, transferSnapshot] using htx
  · simp [hst, hctx, hmem]
  · simp [hst]
  · refine ⟨fun _ => hother, fun hfull x => congrArg (Memory.read · x) (hnone fun hroom => ?_), ?_⟩
    · exact hfull ⟨hst, hroom⟩
    · simp [hst, hsub, hctx]

/-! ## The bytes a send stores (R177) -/

/-- A byte past the skip is stored when it fits. -/
theorem capturedBytes_stores {p : Params} (hnever : p.skipNever ≠ 0) {capacity : Nat} (hroom : 0 < capacity)
    (e : Slots) (es : List Slots) : capturedBytes p 0 capacity (e :: es) =
      decodeByte p e :: capturedBytes p 0 (capacity - 1) es := by
  obtain ⟨n, rfl⟩ := Nat.exists_eq_add_one.2 hroom
  rw [capturedBytes, if_neg hnever.symm, capturedBytes, if_neg hnever.symm]
  rfl

/-- A byte that is skipped or does not fit is not stored, and the skip counter counts it down modulo 256:
from 0 it goes to `SKIP_NEVER`, and no later byte fits either. -/
theorem capturedBytes_counts {p : Params} (hnever : p.skipNever = 0xFF) {skip : Byte} {capacity : Nat}
    (hskip : skip ≠ p.skipNever) (hfull : ¬ (skip = 0 ∧ 0 < capacity)) (e : Slots) (es : List Slots) :
    capturedBytes p skip capacity (e :: es) = capturedBytes p (skip - 1) capacity es := by
  rw [capturedBytes, if_neg hskip, capturedBytes, hnever]
  by_cases hzero : skip = 0
  · have hnone : capacity = 0 := Nat.eq_zero_of_not_pos fun hroom => hfull ⟨hzero, hroom⟩
    simp [hnone]
  · have hmore : ¬ skip - 1 = 0xFF := by bv_omega
    have hcount : skip.toNat = (skip - 1).toNat + 1 := by bv_omega
    rw [if_neg hmore, hcount, List.drop_succ_cons]

theorem capturedBytes_never (p : Params) (capacity : Nat) (es : List Slots) :
    capturedBytes p p.skipNever capacity es = [] :=
  if_pos rfl

/-- A capture stores the first of the captured bytes, or none of them, and leaves the registers for the
others. -/
theorem captureByte_capturedBytes {s : State} (hnever : s.cfg.skipNever = 0xFF) (e : Slots)
    (es : List Slots) (hacc : Accessible s.cfg s.ctx.dataCursor
      (capturedBytes s.cfg s.ctx.readSkip s.ctx.dataRemaining (e :: es)).length) :
    ∃ kept left skip,
      captureByte (decodeByte s.cfg e) s =
        .ok ((s.setMem (writeAll s.mem s.ctx.dataCursor kept)).setCtx { s.ctx with
          dataCursor := s.ctx.dataCursor + kept.length, dataRemaining := left, readSkip := skip })
      ∧ capturedBytes s.cfg s.ctx.readSkip s.ctx.dataRemaining (e :: es) =
          kept ++ capturedBytes s.cfg skip left es := by
  by_cases hroom : s.ctx.readSkip = 0 ∧ 0 < s.ctx.dataRemaining
  · obtain ⟨hzero, hleft⟩ := hroom
    have hbytes := capturedBytes_stores (p := s.cfg) (by simp [hnever]) hleft e es
    rw [hzero, hbytes] at hacc
    obtain ⟨hin, -⟩ := accessible_head.1 hacc
    exact ⟨[decodeByte s.cfg e], _, _, captureByte_stores ⟨hzero, hleft⟩ hin, by rw [hzero, hbytes]; rfl⟩
  · by_cases hskip : s.ctx.readSkip = s.cfg.skipNever
    · refine ⟨[], _, _, captureByte_ignores hroom hskip, ?_⟩
      rw [hskip, capturedBytes_never, capturedBytes_never]
      rfl
    · exact ⟨[], _, _, captureByte_counts hroom hskip, capturedBytes_counts hnever hskip hroom e es⟩

/-- Writing one list of bytes and then another from where it ended. -/
theorem writeAll_append (m : Memory) (a : Nat) (bs cs : List Byte) :
    writeAll m a (bs ++ cs) = writeAll (writeAll m a bs) (a + bs.length) cs := by
  induction bs generalizing m a with
  | nil => rfl
  | cons b bs ih =>
    rw [List.cons_append, writeAll, ih, List.length_cons, Nat.add_right_comm, Nat.add_assoc]
    rfl

/-- The part of an accessible buffer past its first bytes. -/
theorem accessible_rest {p : Params} {a m n : Nat} (h : Accessible p a (m + n)) :
    Accessible p (a + m) n := by
  intro k hk
  rw [Nat.add_assoc]
  exact h (m + k) (Nat.add_lt_add_left hk m)

/-! ## A send past its SETUP as its polling host sees it (R177)

The host's requests are the packed word of one SEND, and every exchange is completed before the next poll. -/

/-- What a send works through: its command and data registers, and memory. -/
structure SendRegs where
  cmdCursor : Nat
  cmdLeft : Nat
  dataCursor : Nat
  dataLeft : Nat
  skip : Byte
  mem : Memory

/-- Those registers in a state. -/
def sendRegs (s : State) : SendRegs :=
  ⟨s.ctx.commandCursor, s.ctx.commandRemaining, s.ctx.dataCursor, s.ctx.dataRemaining, s.ctx.readSkip,
    s.mem⟩

/-- A state inside a send of host bytes, the action of `ts` next and the registers at `r`. -/
structure UnderSend (p : Params) (ts : TransferState) (r : SendRegs) (es : List Event) (s : State) :
    Prop where
  cfg : s.cfg = p
  fault : s.fault = none
  owner : s.ctx.owner = .transfer
  state : s.ctx.transferState = ts
  source : s.ctx.commandSource = .host
  regs : sendRegs s = r
  env : s.env = es

/-- The substrate is idle and has received the eight slots `e`. -/
structure Received (e : Slots) (s : State) : Prop where
  idle : s.sub.busy = false
  slots : s.ctx.rx = e

/-- A send has answered `OK` with its registers at `r`, the context idle again. -/
structure SendEnded (r : SendRegs) (es : List Event) (s : State) : Prop where
  result : s.result = some ⟨.ok, 0⟩
  owner : s.ctx.owner = .idle
  state : s.ctx.transferState = .setup
  regs : sendRegs s = r
  env : s.env = es

/-- A completion of all eight entries leaves the bytes the bus chose (R72). -/
theorem mergeRx_full (old b : Slots) : mergeRx old b 8 = b := by
  refine Vector.ext fun i hi => ?_
  rw [mergeRx_get old b 8 i hi, if_pos hi]

section
variable {p : Params} {ts : TransferState} {r : SendRegs} {es : List Event} {s : State} {e : Slots}

/-- The completion brings the echo (R72). -/
theorem UnderSend.complete (h : UnderSend p .await r (.complete e :: es) s) (hbusy : s.sub.busy = true)
    (harmed : s.sub.rxPending = 8) :
    ∃ t, step s = .next t ∧ UnderSend p .await r es t ∧ Received e t := by
  refine ⟨_, step_complete h.fault h.env hbusy, { h with env := rfl }, rfl, ?_⟩
  exact (congrArg (mergeRx s.ctx.rx e) harmed).trans (mergeRx_full _ _)

variable {w a la b lb : Nat} {skip : Byte} (hw : decode p w = .ok (.send a la b lb skip))
include hw

/-- A poll under a send is one transfer step: the owner is TRANSFER already. -/
theorem UnderSend.poll {st : Status} {t : State} (h : UnderSend p ts r (.request w :: es) s)
    (hstep : transferStep ⟨.host, a, la, b, lb, skip⟩ (s.setEnv es) = .ok (st, t)) :
    step s = .next (endPoll st t) := by
  have hself : setOwner .transfer (s.setEnv es) = s.setEnv es := by rw [← h.owner]; rfl
  have hexec : exec (.send a la b lb skip) (s.setEnv es) = .next (endPoll st t) :=
    exec_send_next h.fault (.inr h.owner) (hself.symm ▸ hstep)
  rw [step_request ⟨h.fault, ne_search_of_sendable (.inr h.owner)⟩ h.env, runRequest, State.setEnv_cfg,
    h.cfg, hw]
  exact congrArg (commit (s.setEnv es)) hexec

/-- The next command byte goes out, and a receive of eight bytes is armed with it (R172). -/
theorem UnderSend.sendByte (h : UnderSend p .writeByte r (.request w :: es) s) (hleft : r.cmdLeft ≠ 0)
    (hin : inWindow p r.cmdCursor = true) :
    ∃ t, step s = .next t
      ∧ UnderSend p .await { r with cmdCursor := r.cmdCursor + 1, cmdLeft := r.cmdLeft - 1 } es t
      ∧ t.sub.busy = true ∧ t.sub.rxPending = 8 := by
  obtain rfl := h.cfg
  obtain rfl := h.regs
  obtain ⟨-, -, hsends⟩ := transferWriteByteAction ⟨.host, a, la, b, lb, skip⟩ (s.setEnv es) h.state
  have hact := hsends _ hleft (fun _ => ⟨hin, rfl⟩) fun hsrc => absurd (h.source.symm.trans hsrc) nofun
  exact ⟨_, h.poll hw hact, { h with state := rfl, regs := rfl, env := rfl }, rfl, rfl⟩

/-- The wait ends at once: the substrate is idle (R173). -/
theorem UnderSend.wait (h : UnderSend p .await r (.request w :: es) s) (he : Received e s) :
    ∃ t, step s = .next t ∧ UnderSend p .consume r es t ∧ Received e t := by
  have hdone : exchDone (s.setEnv es) = true := (exchDone_iff _).2 (.inl he.idle)
  have hact := transferStep_await ⟨.host, a, la, b, lb, skip⟩ (s := s.setEnv es) h.state
  rw [if_pos hdone] at hact
  exact ⟨_, h.poll hw hact, { h with state := rfl, env := rfl }, he.idle, he.slots⟩

/-- The echo is stored if it is the next captured byte (R174). -/
theorem UnderSend.capture (hnever : p.skipNever = 0xFF) (h : UnderSend p .consume r (.request w :: es) s)
    (he : Received e s) {rest : List Slots}
    (hacc : Accessible p r.dataCursor (capturedBytes p r.skip r.dataLeft (e :: rest)).length) :
    ∃ t kept left count, step s = .next t
      ∧ UnderSend p .writeByte { r with
          dataCursor := r.dataCursor + kept.length, dataLeft := left, skip := count
          mem := writeAll r.mem r.dataCursor kept } es t
      ∧ capturedBytes p r.skip r.dataLeft (e :: rest) = kept ++ capturedBytes p count left rest := by
  obtain rfl := h.cfg
  obtain rfl := h.regs
  obtain ⟨kept, left, count, hcapture, hbytes⟩ :=
    captureByte_capturedBytes (s := s.setEnv es) hnever e rest hacc
  have hact := transferStep_consume ⟨.host, a, la, b, lb, skip⟩ (s := s.setEnv es) h.state
  have hseen : rxSeen (s.setEnv es) = e := (rxSeen_idle he.idle).trans he.slots
  have hdrawn : rxDrawn (s.setEnv es) = s.setEnv es := rxDrawn_idle he.idle
  rw [hseen, hdrawn, hcapture] at hact
  exact ⟨_, kept, left, count, h.poll hw hact, { h with state := rfl, regs := rfl, env := rfl }, hbytes⟩

/-- One command byte: sent, echoed, awaited and captured. -/
theorem UnderSend.round (hnever : p.skipNever = 0xFF)
    (h : UnderSend p .writeByte r (byteEvents w e ++ es) s) (hleft : r.cmdLeft ≠ 0)
    (hin : inWindow p r.cmdCursor = true) {rest : List Slots}
    (hacc : Accessible p r.dataCursor (capturedBytes p r.skip r.dataLeft (e :: rest)).length) :
    ∃ t kept left count, (∀ k, core.run (k + 4) s = core.run k t)
      ∧ UnderSend p .writeByte ⟨r.cmdCursor + 1, r.cmdLeft - 1, r.dataCursor + kept.length, left, count,
          writeAll r.mem r.dataCursor kept⟩ es t
      ∧ capturedBytes p r.skip r.dataLeft (e :: rest) = kept ++ capturedBytes p count left rest := by
  obtain ⟨s1, hs1, h1, hbusy, harmed⟩ := h.sendByte hw hleft hin
  obtain ⟨s2, hs2, h2, he2⟩ := h1.complete hbusy harmed
  obtain ⟨s3, hs3, h3, he3⟩ := h2.wait hw he2
  obtain ⟨t, kept, left, count, ht, h4, hbytes⟩ := h3.capture hw hnever he3 hacc
  refine ⟨t, kept, left, count, fun k => ?_, h4, hbytes⟩
  rw [core_run_of_step hs1, core_run_of_step hs2, core_run_of_step hs3, core_run_of_step ht]

/-- The poll that finds no command byte left answers `OK` (R172). -/
theorem UnderSend.finish (h : UnderSend p .writeByte r (.request w :: es) s) (hleft : r.cmdLeft = 0) :
    ∃ t, step s = .next t ∧ SendEnded r es t := by
  obtain rfl := h.regs
  obtain ⟨hdone, -⟩ := transferWriteByteAction ⟨.host, a, la, b, lb, skip⟩ (s.setEnv es) h.state
  exact ⟨_, h.poll hw (hdone hleft), rfl, rfl, rfl, rfl, rfl⟩

/-- The run of a send past its SETUP: one round for each command byte, and the poll that answers (R177). -/
theorem UnderSend.run (hnever : p.skipNever = 0xFF) {echoes : List Slots} : ∀ {r : SendRegs} {s : State},
    UnderSend p .writeByte r (sendEvents w echoes ++ es) s → r.cmdLeft = echoes.length →
    Accessible p r.cmdCursor echoes.length →
    Accessible p r.dataCursor (capturedBytes p r.skip r.dataLeft echoes).length →
    ∃ t left count, core.run (sendEvents w echoes).length s = .next t
      ∧ SendEnded ⟨r.cmdCursor + echoes.length, 0,
          r.dataCursor + (capturedBytes p r.skip r.dataLeft echoes).length, left, count,
          writeAll r.mem r.dataCursor (capturedBytes p r.skip r.dataLeft echoes)⟩ es t := by
  induction echoes with
  | nil =>
    intro r s h hleft _ _
    obtain ⟨t, ht, hended⟩ := h.finish hw hleft
    have hnone : capturedBytes p r.skip r.dataLeft [] = [] := by simp [capturedBytes]
    refine ⟨t, r.dataLeft, r.skip, core_run_of_step ht 0, ?_⟩
    rw [hnone]
    exact { hended with regs := hended.regs.trans (congrArg (fun n => { r with cmdLeft := n }) hleft) }
  | cons e echoes ih =>
    intro r s h hleft hcmd hdata
    obtain ⟨hin, hcmd'⟩ := accessible_head.1 hcmd
    obtain ⟨u, kept, left, count, hrun, hu, hbytes⟩ := h.round hw hnever (by simp [hleft]) hin hdata
    rw [hbytes, List.length_append] at hdata
    obtain ⟨t, left', count', ht, hended⟩ := ih hu (by simp [hleft]) hcmd' (accessible_rest hdata)
    refine ⟨t, left', count', (hrun _).trans ht, ?_⟩
    rw [hbytes, writeAll_append, List.length_append, List.length_cons, Nat.add_comm echoes.length,
      ← Nat.add_assoc, ← Nat.add_assoc]
    exact hended

end

/-- Settles O30: the rounds of the run store the captured bytes from the data cursor on. -/
theorem sendStoresTheEchoesAfterTheSkip : Obligations.SendStoresTheEchoesAfterTheSkip := by
  intro s a la b lb skip echoes es w stored ⟨hfault, _⟩ howner hst hsrc hleft hnever hmem hwf hcmd hdata he
  have hstart : UnderSend s.cfg .writeByte (sendRegs s) (sendEvents w echoes ++ es) s :=
    ⟨rfl, hfault, howner, hst, hsrc, rfl, he⟩
  obtain ⟨t, left, count, hrun, hended⟩ :=
    hstart.run (decodeInvertsEncode s.cfg _ hwf) hnever hleft hcmd hdata
  have hcursor := congrArg SendRegs.cmdCursor hended.regs
  have hdcursor := congrArg SendRegs.dataCursor hended.regs
  have hstored : t.mem = writeAll s.mem s.ctx.dataCursor stored := congrArg SendRegs.mem hended.regs
  refine ⟨t, hrun, hended.result, hended.owner, hended.state, hended.env, hcursor, hdcursor,
    fun j hj => ?_, fun x hx => ?_⟩
  · rw [hstored]
    exact writeAll_read_at hmem hj
  · rw [hstored]
    exact hx.elim (writeAll_read_below _) (writeAll_read_above _)

end Sys2Proof.Machine
end

section
/-! SUPPORT. Proofs about the ROM search sequencer (43_rom_search.md): the request that starts it, the action
of each phase, what a core step can do to the result and to memory, and the scheduled run of a pass on which
every read pair agrees. -/

namespace Sys2Proof.Machine

/-! ## The request SEARCH (R200) -/

theorem legalOp_search (p : Params) : legalOp p 0x04 = p.featureSearch := by
  simp [legalOp]

/-- Settles O31: the three outcomes are those of a host step with the code of SEARCH: illegal, forbidden by
the owner, or the operation's own step. -/
theorem searchRequestStartsTheSequencer : Obligations.SearchRequestStartsTheSequencer := by
  intro a max s hready
  obtain ⟨hfault, howner⟩ := hready
  refine ⟨fun habsent => ?_, fun hbuilt hheld => ?_, fun hbuilt hidle => ?_⟩
  · exact hostStep_illegal ⟨hfault, howner⟩ ((legalOp_search _).trans habsent)
  · exact hostStep_overlap ⟨hfault, howner⟩ ((legalOp_search _).trans hbuilt) (by simp [hheld])
  · exact hostStep_allowed hfault howner ((legalOp_search _).trans hbuilt) (by simp [hidle])

/-! ## The phase S_PASS (R201, R209) -/

theorem searchStep_pass {s : State} (h : s.srch.phase = .pass) : searchStep s = searchPass s := by
  rw [searchStep, h]

theorem searchPass_full {s : State} (h : s.srch.max ≤ s.srch.found) :
    searchPass s = .ok (terminate s.srch.found s) :=
  if_pos h

/-- Settles O32: room or none, and the status of the pass's transfer step. -/
theorem searchPassAction : Obligations.SearchPassAction := by
  intro s hphase
  rw [searchStep_pass hphase]
  refine ⟨searchPass_full, fun st t hroom hstep => ?_⟩
  replace hstep : transferStep (searchArgs s.cfg) s = .ok (st, t) := hstep
  rw [searchPass, if_neg (BitVec.not_le.2 hroom), hstep]
  refine ⟨?_, ?_, ?_⟩ <;> rintro rfl <;> rfl

/-! ## The read pair and the two waits (R202, R203, R208) -/

theorem searchStep_pairStart {s : State} (h : s.srch.phase = .pairStart) :
    searchStep s = .ok (searchPairStart s) := by
  rw [searchStep, h]

theorem searchStep_pairWait {s : State} (h : s.srch.phase = .pairWait) :
    searchStep s = .ok (searchPairWait s) := by
  rw [searchStep, h]

theorem searchStep_writeWait {s : State} (h : s.srch.phase = .writeWait) :
    searchStep s = .ok (searchWriteWait s) := by
  rw [searchStep, h]

theorem searchWriteWait_waits {s : State} (h : exchDone s = false) : searchWriteWait s = s := by
  rw [searchWriteWait, if_pos (by simp [h])]

/-- An ended write slot before position 64: the next position (R208). -/
theorem searchWriteWait_nextBit {s : State} (h : exchDone s = true) (hbit : s.srch.bit < 64) :
    searchWriteWait s = s.setSrch { s.srch with bit := s.srch.bit + 1, phase := .pairStart } := by
  rw [searchWriteWait, if_neg (by simp [h]), if_pos hbit]

/-- The write slot of position 64 with no collision recorded: the search ends, one more device found. -/
theorem searchWriteWait_last {s : State} (h : exchDone s = true) (hbit : 64 ≤ s.srch.bit)
    (hcoll : s.srch.currentCollision = 0) : searchWriteWait s =
      terminate (s.srch.found + 1) (s.setSrch { s.srch with found := s.srch.found + 1 }) := by
  rw [searchWriteWait, if_neg (by simp [h]), if_neg (BitVec.not_lt.2 hbit)]
  exact if_pos hcoll

/-- The write slot of position 64 with a collision recorded: the next pass (R208). -/
theorem searchWriteWait_nextPass {s : State} (h : exchDone s = true) (hbit : 64 ≤ s.srch.bit)
    (hcoll : s.srch.currentCollision ≠ 0) : searchWriteWait s = s.setSrch { s.srch with
      found := s.srch.found + 1, lastCollision := s.srch.currentCollision, bit := 0, phase := .pass } := by
  rw [searchWriteWait, if_neg (by simp [h]), if_neg (BitVec.not_lt.2 hbit)]
  exact if_neg hcoll

/-- Settles O33: the exchange has ended or not, and what the write slot's end leads to. -/
theorem searchPairAndWaitActions : Obligations.SearchPairAndWaitActions := by
  intro s done
  have hdone : exchDone s = true ↔ done := exchDone_iff s
  have hbusy : ¬ done → exchDone s = false := fun hn => Bool.eq_false_iff.2 (mt hdone.1 hn)
  refine ⟨searchStep_pairStart, fun hphase => ?_, fun hphase => ?_⟩
  · rw [searchStep_pairWait hphase, searchPairWait]
    exact ⟨fun hd => congrArg _ (if_pos (hdone.2 hd)), fun hn => congrArg _ (if_neg (mt hdone.1 hn))⟩
  · rw [searchStep_writeWait hphase]
    refine ⟨fun hn => ?_, fun hd hbit => ?_, fun hd hbit hcoll => ?_, fun hd hbit hcoll => ?_⟩
    · rw [searchWriteWait_waits (hbusy hn)]
    · rw [searchWriteWait_nextBit (hdone.2 hd) hbit]
      rfl
    · rw [searchWriteWait_last (hdone.2 hd) hbit hcoll]
      rfl
    · rw [searchWriteWait_nextPass (hdone.2 hd) hbit hcoll]
      rfl

/-! ## The phase S_DECIDE (R204 to R207) -/

theorem searchStep_decide {s : State} (h : s.srch.phase = .decide) : searchStep s = searchDecide s := by
  rw [searchStep, h]

theorem slotBit_eq_true {p : Params} {b : Byte} : slotBit p b = true ↔ b = p.slotOne :=
  beq_iff_eq

theorem slotBit_eq_false {p : Params} {b : Byte} : slotBit p b = false ↔ b ≠ p.slotOne :=
  beq_eq_false_iff_ne

theorem searchDecide_silence {s : State} (h0 : slotBit s.cfg (rxSeen s)[0] = true)
    (h1 : slotBit s.cfg (rxSeen s)[1] = true) :
    searchDecide s = .ok (terminate s.srch.found (rxDrawn s)) := by
  rw [searchDecide, h0, h1, rxDrawn_srch]

/-- The bit all devices agree on is the one selected (R204). -/
theorem searchDecide_agreed {s : State} {x : Bool} (h : agreedPair s.cfg x (rxSeen s)) :
    searchDecide s = searchSelect x (rxDrawn s) := by
  obtain ⟨h0, h1⟩ := h
  rw [searchDecide, h0, h1]
  cases x <;> rfl

theorem searchDecide_collision {s : State} (h0 : slotBit s.cfg (rxSeen s)[0] = false)
    (h1 : slotBit s.cfg (rxSeen s)[1] = false) :
    searchDecide s = resolveCollision (rxDrawn s) >>= fun r => searchSelect r.1 r.2 := by
  rw [searchDecide, h0, h1]

/-- The pair is silence, an agreed bit, or a collision (R204). -/
theorem pair_cases (p : Params) (pair : Slots) :
    (slotBit p pair[0] = true ∧ slotBit p pair[1] = true) ∨ (∃ x, agreedPair p x pair)
      ∨ (slotBit p pair[0] = false ∧ slotBit p pair[1] = false) := by
  unfold agreedPair
  cases slotBit p pair[0] <;> cases slotBit p pair[1] <;> simp

/-- A current slot outside the window faults at its first access, the read (R206). -/
theorem searchSelect_faults {s : State} (sel : Bool) (h : inWindow s.cfg (curRomAddr s) = false) :
    searchSelect sel s = .error (.memRange (curRomAddr s) .read) := by
  rw [searchSelect, recordBit, memRead_eq_error.2 ⟨h, rfl⟩]
  rfl

/-- The tie-break answers a bit when the byte it replays, if it replays one, is accessible (R205). -/
theorem resolveCollision_completes {s : State}
    (h : s.srch.bit < s.srch.lastCollision → inWindow s.cfg (prevRomAddr s) = true) :
    ∃ sel t, resolveCollision s = .ok (sel, t) := by
  obtain hlt | heq | hgt := Nat.lt_trichotomy s.srch.bit.toNat s.srch.lastCollision.toNat
  · exact ⟨_, _, resolveCollision_before hlt (h hlt) rfl⟩
  · exact ⟨_, _, resolveCollision_at (BitVec.eq_of_toNat_eq heq)⟩
  · exact ⟨_, _, resolveCollision_after hgt⟩

/-- Where a device answers and a replay is accessible, the decision comes to select a bit at the current
position of the current slot (R204, R205). -/
theorem searchDecide_selects {s : State}
    (hheard : ¬ (slotBit s.cfg (rxSeen s)[0] = true ∧ slotBit s.cfg (rxSeen s)[1] = true))
    (hprev : slotBit s.cfg (rxSeen s)[0] = false → slotBit s.cfg (rxSeen s)[1] = false →
      s.srch.bit < s.srch.lastCollision → inWindow s.cfg (prevRomAddr s) = true) :
    ∃ sel u, searchDecide s = searchSelect sel u ∧ u.cfg = s.cfg ∧ curRomAddr u = curRomAddr s := by
  obtain hsilent | ⟨x, hagreed⟩ | ⟨h0, h1⟩ := pair_cases s.cfg (rxSeen s)
  · exact absurd hsilent hheard
  · exact ⟨x, _, searchDecide_agreed hagreed, by simp, by simp [curRomAddr]⟩
  · obtain ⟨sel, u, hr⟩ := resolveCollision_completes (s := rxDrawn s)
      (by simpa [prevRomAddr] using hprev h0 h1)
    refine ⟨sel, u, by rw [searchDecide_collision h0 h1, hr, ok_bind], ?_⟩
    obtain rfl | ⟨-, rfl⟩ := resolveCollision_cases hr <;> simp [curRomAddr]

/-- Settles O34: the slots read decide, and at a collision the tie-break on the position. -/
theorem searchDecideAction : Obligations.SearchDecideAction := by
  intro s x n hphase hidle hbusy p cur prev selected old replayed
  obtain ⟨rfl, hdrawn⟩ := rx_slots_eq hidle hbusy
  rw [searchStep_decide hphase]
  have hkept (sel : Bool) (hin : inWindow s.cfg cur = true) :
      searchSelect sel (s.setDraws n) = .ok (selected sel old) :=
    searchSelect_eq_ok.2 ⟨hin, rfl⟩
  have hrecorded (sel : Bool) (hin : inWindow s.cfg cur = true) :
      searchSelect sel ((s.setDraws n).setSrch { s.srch with currentCollision := s.srch.bit }) =
        .ok (selected sel s.srch.bit) :=
    searchSelect_eq_ok.2 ⟨hin, rfl⟩
  simp only [← slotBit_eq_true, ← slotBit_eq_false]
  refine ⟨fun h0 h1 => ?_, fun hin => ⟨fun h0 h1 => ?_, fun h0 h1 => ?_, fun h0 h1 => ?_⟩,
    fun hout hheard hprev => ?_, fun h0 h1 hlt hout => ?_⟩
  · rw [searchDecide_silence h0 h1, hdrawn]
    rfl
  · rw [searchDecide_agreed (x := true) ⟨h0, h1⟩, hdrawn, hkept true hin]
  · rw [searchDecide_agreed (x := false) ⟨h0, h1⟩, hdrawn, hkept false hin]
  · rw [searchDecide_collision h0 h1, hdrawn]
    refine ⟨fun hlt hprev => ?_, fun heq => ?_, fun hgt => ?_⟩
    · rw [resolveCollision_before (s := s.setDraws n) hlt hprev (sel := replayed) rfl, ok_bind]
      cases replayed
      · exact hkept false hin
      · exact hrecorded true hin
    · rw [resolveCollision_at (s := s.setDraws n) heq]
      exact hkept false hin
    · rw [resolveCollision_after (s := s.setDraws n) hgt]
      exact hrecorded true hin
  · obtain ⟨sel, u, hselects, hcfg, hcur⟩ := searchDecide_selects hheard hprev
    rw [hselects, searchSelect_faults sel (by rw [hcfg, hcur]; exact hout), hcur]
    rfl
  · rw [searchDecide_collision h0 h1, hdrawn, resolveCollision_faults (s := s.setDraws n) hlt hout]
    rfl

/-! ## How a core step ends (R209) -/

/-- The search goes on, the host still without a result. -/
def SearchGoesOn (s t : State) : Prop :=
  t.ctx.owner = .search ∧ t.srch.phase ≠ .idle ∧ t.result = s.result

/-- The search has ended with its count. -/
def SearchEnded (t : State) : Prop :=
  t.ctx.owner = .idle ∧ t.srch.phase = .idle ∧ t.result = some ⟨.ok, t.srch.found.setWidth 16⟩

theorem terminate_ended {n : Byte} {s : State} (h : s.srch.found = n) : SearchEnded (terminate n s) :=
  ⟨rfl, rfl, h ▸ rfl⟩

theorem searchPass_ends {s t : State} (howner : s.ctx.owner = .search) (hphase : s.srch.phase = .pass)
    (h : searchPass s = .ok t) : SearchGoesOn s t ∨ SearchEnded t := by
  obtain ⟨-, rfl⟩ | ⟨-, st, u, hstep, hend⟩ := searchPass_cases h
  · exact .inr (terminate_ended rfl)
  · obtain ⟨-, hsrch, -, hresult, -, -, hown, -⟩ := transferStep_frame hstep
    obtain ⟨-, rfl⟩ | ⟨-, rfl⟩ | ⟨-, rfl⟩ := hend
    · exact .inl ⟨hown.trans howner, by simp [hsrch, hphase], hresult⟩
    · exact .inr (terminate_ended rfl)
    · exact .inl ⟨hown.trans howner, nofun, hresult⟩

theorem searchDecide_ends {s t : State} (howner : s.ctx.owner = .search) (h : searchDecide s = .ok t) :
    SearchGoesOn s t ∨ SearchEnded t := by
  obtain rfl | ⟨sel, u, hsel, hu⟩ := searchDecide_cases h
  · exact .inr (terminate_ended (by simp))
  · obtain ⟨-, rfl⟩ := searchSelect_eq_ok.1 hsel
    refine .inl ⟨?_, nofun, ?_⟩ <;> obtain rfl | rfl := hu <;> simp [howner]

theorem searchWriteWait_ends {s : State} (howner : s.ctx.owner = .search)
    (hphase : s.srch.phase = .writeWait) :
    SearchGoesOn s (searchWriteWait s) ∨ SearchEnded (searchWriteWait s) := by
  obtain heq | ⟨-, heq⟩ | heq | ⟨-, heq⟩ := searchWriteWait_cases s <;> rw [heq]
  · exact .inl ⟨howner, by simp [hphase], rfl⟩
  · exact .inl ⟨howner, nofun, rfl⟩
  · exact .inr (terminate_ended rfl)
  · exact .inl ⟨howner, nofun, rfl⟩

/-- Settles O35: each phase goes on or ends the search. -/
theorem searchEndsWithItsCount : Obligations.SearchEndsWithItsCount := by
  intro s t howner hactive h
  unfold searchStep at h
  split at h
  · next hphase => exact absurd hphase hactive
  · next hphase => exact searchPass_ends howner hphase h
  · cases h; exact .inl ⟨howner, nofun, rfl⟩
  · next hphase =>
    cases h
    obtain heq | heq := searchPairWait_cases s <;> rw [heq]
    · exact .inl ⟨howner, hactive, rfl⟩
    · exact .inl ⟨howner, nofun, rfl⟩
  · exact searchDecide_ends howner h
  · next hphase => cases h; exact searchWriteWait_ends howner hphase

/-! ## The memory a core step writes (R211) -/

@[simp] theorem terminate_mem (n : Byte) (s : State) : (terminate n s).mem = s.mem := rfl

/-- The transfer of a pass has no data buffer and stores nothing (R201). -/
theorem transferStep_pass_mem {s t : State} {args : TransferArgs} {st : Status} (h : Inv s)
    (hphase : s.srch.phase = .pass) (hstep : transferStep args s = .ok (st, t)) : t.mem = s.mem := by
  obtain ⟨-, rfl | rfl⟩ | ⟨-, hmem, -⟩ | ⟨-, next, rfl⟩ | ⟨hst, -, -, hnone, -⟩ :=
    transferStep_writes hstep
  · exact resetStep_mem s
  · exact resetStep_mem s
  · exact hmem
  · rfl
  · obtain ⟨-, hempty⟩ := h.control.passCommand hphase (by simp [hst])
    exact hnone (by simp [hempty])

theorem searchPass_mem {s t : State} (h : Inv s) (hphase : s.srch.phase = .pass)
    (hstep : searchPass s = .ok t) : t.mem = s.mem := by
  obtain ⟨-, rfl⟩ | ⟨-, st, u, hstep, hend⟩ := searchPass_cases hstep
  · rfl
  · have hmem : u.mem = s.mem := transferStep_pass_mem h hphase hstep
    obtain ⟨-, rfl⟩ | ⟨-, rfl⟩ | ⟨-, rfl⟩ := hend <;> exact hmem

theorem searchWriteWait_mem (s : State) : (searchWriteWait s).mem = s.mem := by
  obtain heq | ⟨-, heq⟩ | heq | ⟨-, heq⟩ := searchWriteWait_cases s <;> simp [heq]

/-- Outside `S_DECIDE` a core step writes no memory. -/
theorem searchStep_mem {s t : State} (h : Inv s) (hphase : s.srch.phase ≠ .decide)
    (hstep : searchStep s = .ok t) : t.mem = s.mem := by
  unfold searchStep at hstep
  split at hstep
  · cases hstep; rfl
  · next hpass => exact searchPass_mem h hpass hstep
  · cases hstep; rfl
  · cases hstep
    obtain heq | heq := searchPairWait_cases s <;> simp [heq]
  · next hdecide => exact absurd hdecide hphase
  · cases hstep; exact searchWriteWait_mem s

/-- `S_DECIDE` writes the current byte of the current slot at most (R206). -/
theorem searchDecide_mem {s t : State} (h : searchDecide s = .ok t) {x : Nat} (hx : x ≠ curRomAddr s) :
    t.mem.read x = s.mem.read x := by
  obtain rfl | ⟨sel, u, hsel, hu⟩ := searchDecide_cases h
  · exact congrArg (Memory.read · x) (rxDrawn_mem s)
  · obtain ⟨-, rfl⟩ := searchSelect_eq_ok.1 hsel
    have hcur : curRomAddr u = curRomAddr s := by obtain rfl | rfl := hu <;> simp [curRomAddr]
    have hmem : u.mem = s.mem := by obtain rfl | rfl := hu <;> simp
    exact (Memory.read_write_other _ _ (hcur ▸ hx)).trans (by rw [hmem])

/-- A bit position up to 64 lies in its slot (R101). -/
theorem romByteAddr_in_slot (out k : Nat) {p : Nat} (hp : p ≤ 64) :
    out + 8 * k ≤ romByteAddr out k p ∧ romByteAddr out k p < out + 8 * k + 8 := by
  unfold romByteAddr
  omega

/-- Settles O37: the byte `S_DECIDE` writes lies in the current slot, and no other phase writes one. -/
theorem searchWritesOnlyItsSlot : Obligations.SearchWritesOnlyItsSlot := by
  intro s t _ hinv hstep
  refine ⟨fun x hx => ?_, fun hphase x => by rw [searchStep_mem hinv hphase hstep]⟩
  by_cases hphase : s.srch.phase = .decide
  · rw [searchStep_decide hphase] at hstep
    obtain ⟨hlo, hhi⟩ := romByteAddr_in_slot s.srch.out s.srch.found.toNat hinv.ranges.bit
    refine searchDecide_mem hstep fun hcur => ?_
    rw [hcur] at hx
    exact hx.elim (Nat.not_lt.2 hlo) (Nat.not_le.2 hhi)
  · rw [searchStep_mem hinv hphase hstep]

/-! ## A core step completes (R201 to R208) -/

/-- The transfer of a pass takes its byte from the constant and has no data buffer, so it makes no access
that could fault (R201). -/
theorem transferStep_pass_completes {s : State} (h : Inv s) (hphase : s.srch.phase = .pass)
    (args : TransferArgs) : ∃ st t, transferStep args s = .ok (st, t) := by
  refine transferStep_completes args (fun hst _ hhost => ?_) (fun hst _ hroom => ?_)
  · obtain ⟨hconst, -⟩ := h.control.passCommand hphase (by simp [hst])
    rw [hhost] at hconst
    cases hconst
  · obtain ⟨-, hempty⟩ := h.control.passCommand hphase (by simp [hst])
    omega

theorem searchStep_pass_completes {s : State} (h : Inv s) (hphase : s.srch.phase = .pass) :
    ∃ t, searchStep s = .ok t := by
  obtain ⟨hfull, hroom⟩ := searchPassAction s hphase
  by_cases hmax : s.srch.max ≤ s.srch.found
  · exact ⟨_, hfull hmax⟩
  · obtain ⟨st, t, hstep⟩ := transferStep_pass_completes h hphase (searchArgs s.cfg)
    obtain ⟨hwait, hnone, hok⟩ := hroom st t (BitVec.not_le.1 hmax) hstep
    cases st with
    | wait => exact ⟨_, hwait rfl⟩
    | noDevice => exact ⟨_, hnone rfl⟩
    | ok => exact ⟨_, hok rfl⟩

/-- A decision completes on silence, and otherwise when the bytes it accesses are in the window. -/
theorem searchDecide_completes {s : State} (hcur : inWindow s.cfg (curRomAddr s) = true)
    (hprev : s.srch.bit < s.srch.lastCollision → inWindow s.cfg (prevRomAddr s) = true) :
    ∃ t, searchDecide s = .ok t := by
  by_cases hsilent : slotBit s.cfg (rxSeen s)[0] = true ∧ slotBit s.cfg (rxSeen s)[1] = true
  · exact ⟨_, searchDecide_silence hsilent.1 hsilent.2⟩
  · obtain ⟨sel, u, hselects, hcfg, haddr⟩ := searchDecide_selects hsilent fun _ _ => hprev
    exact ⟨_, hselects.trans (searchSelect_eq_ok.2 ⟨by rw [hcfg, haddr]; exact hcur, rfl⟩)⟩

/-- Settles O36: each phase completes, and `S_PASS` writes no memory. -/
theorem searchStepCompletes : Obligations.SearchStepCompletes := by
  intro s hinv _ hwindow
  have hcompletes : ∃ t, searchStep s = .ok t := by
    cases hphase : s.srch.phase with
    | idle => exact ⟨s, by rw [searchStep, hphase]⟩
    | pass => exact searchStep_pass_completes hinv hphase
    | pairStart => exact ⟨_, searchStep_pairStart hphase⟩
    | pairWait => exact ⟨_, searchStep_pairWait hphase⟩
    | decide =>
      obtain ⟨hcur, hprev⟩ := hwindow hphase
      rw [searchStep_decide hphase]
      exact searchDecide_completes hcur hprev
    | writeWait => exact ⟨_, searchStep_writeWait hphase⟩
  obtain ⟨t, hstep⟩ := hcompletes
  exact ⟨t, hstep, fun hpass => searchStep_mem hinv (by simp [hpass]) hstep⟩

/-! ## The bits of a ROM slot (R101, R206) -/

/-- Bit `i`, counted from 0, of the ROM slot at `base`. -/
def romBit (m : Memory) (base i : Nat) : Bool := (m.read (base + i / 8)).getLsbD (i % 8)

/-- Memory with bit `i` of the slot at `base` replaced. -/
def writeRomBit (base i : Nat) (x : Bool) (m : Memory) : Memory :=
  m.write (base + i / 8) (setBit (m.read (base + i / 8)) (i % 8) x)

/-- Memory with consecutive bits of the slot replaced, from bit `i` on. -/
def writeRomBits (base : Nat) : Nat → List Bool → Memory → Memory
  | _, [], m => m
  | i, x :: xs, m => writeRomBits base (i + 1) xs (writeRomBit base i x m)

theorem writeRomBit_wf {m : Memory} (hm : Memory.wf m) (base i : Nat) (x : Bool) :
    Memory.wf (writeRomBit base i x m) :=
  Memory.write_wf hm _ _

theorem romBit_writeRomBit {m : Memory} (hm : Memory.wf m) (base i j : Nat) (x : Bool) :
    romBit (writeRomBit base i x m) base j = if j = i then x else romBit m base j := by
  unfold romBit writeRomBit
  rw [Memory.read_write hm]
  by_cases hbyte : j / 8 = i / 8
  · have hbit : j % 8 = i % 8 ↔ j = i := by omega
    rw [if_pos (by rw [hbyte]), setBit_get _ _ _ _ (Nat.mod_lt _ (by decide)) (Nat.mod_lt _ (by decide))]
    simp only [hbit, hbyte]
  · rw [if_neg (by omega), if_neg fun hij => hbyte (by rw [hij])]

/-- A bit below the first one replaced is kept. -/
theorem romBit_writeRomBits_below {base j : Nat} (xs : List Bool) : ∀ {i : Nat} {m : Memory},
    Memory.wf m → j < i → romBit (writeRomBits base i xs m) base j = romBit m base j := by
  induction xs with
  | nil => exact fun _ _ => rfl
  | cons x xs ih =>
    intro i m hm hj
    rw [writeRomBits, ih (writeRomBit_wf hm base i x) (by omega), romBit_writeRomBit hm, if_neg (by omega)]

theorem romBit_writeRomBits {base : Nat} {xs : List Bool} : ∀ {i k : Nat} {m : Memory}, Memory.wf m →
    (hk : k < xs.length) → romBit (writeRomBits base i xs m) base (i + k) = xs[k] := by
  induction xs with
  | nil => exact fun _ hk => absurd hk (Nat.not_lt_zero _)
  | cons x xs ih =>
    intro i k m hm hk
    have hm' := writeRomBit_wf hm base i x
    cases k with
    | zero =>
      rw [writeRomBits, romBit_writeRomBits_below xs hm' (by omega), romBit_writeRomBit hm]
      exact if_pos rfl
    | succ k =>
      have hrest := ih (i := i + 1) hm' (Nat.lt_of_succ_lt_succ hk)
      rwa [Nat.add_right_comm, Nat.add_assoc] at hrest

/-- The 64 bits of a slot lie in its eight bytes. -/
theorem writeRomBits_read_outside {base a : Nat} (ha : a < base ∨ base + 8 ≤ a) (xs : List Bool) :
    ∀ {i : Nat} {m : Memory}, i + xs.length ≤ 64 → (writeRomBits base i xs m).read a = m.read a := by
  induction xs with
  | nil => exact fun _ => rfl
  | cons x xs ih =>
    intro i m hlen
    rw [List.length_cons] at hlen
    rw [writeRomBits, ih (by omega), writeRomBit, Memory.read_write_other _ _ (by omega)]

/-! ## A pass on which every pair agrees (R342)

The core steps whenever it may, and every exchange is completed before the core's next step. -/

/-- Where the slot a pass fills begins (R206). -/
def Srch.slotBase (q : Srch) : Nat := q.out + 8 * q.found.toNat

/-- What the outside does during a pass, position by position. -/
def passEvents (pairs writes : List Slots) : List Event := (List.zipWith bitEvents pairs writes).flatten

theorem passEvents_cons (pair e : Slots) (pairs writes : List Slots) :
    passEvents (pair :: pairs) (e :: writes) = bitEvents pair e ++ passEvents pairs writes := rfl

/-- Four core steps and two completions a position (R342). -/
theorem passEvents_length {pairs : List Slots} : ∀ {writes : List Slots},
    writes.length = pairs.length → (passEvents pairs writes).length = 6 * pairs.length := by
  induction pairs with
  | nil => exact fun _ => rfl
  | cons pair pairs ih =>
    intro writes hlen
    obtain ⟨e, writes, rfl⟩ := List.exists_cons_of_length_eq_add_one hlen
    rw [passEvents_cons, List.length_append, ih (Nat.add_right_cancel hlen), List.length_cons, Nat.mul_succ,
      Nat.add_comm]
    rfl

/-- A state inside the bit positions of a pass: the phase `ph` next at bit `i`, counted from 0, the other
search registers as in `q`, and memory `m`. -/
structure UnderPass (p : Params) (q : Srch) (ph : Phase) (i : Nat) (m : Memory) (es : List Event)
    (s : State) : Prop where
  cfg : s.cfg = p
  fault : s.fault = none
  owner : s.ctx.owner = .search
  srch : s.srch = { q with phase := ph, bit := BitVec.ofNat 7 (i + 1) }
  mem : s.mem = m
  env : s.env = es

/-- The pass has ended the search with one more device counted, and memory `m`. -/
structure PassEnded (q : Srch) (m : Memory) (es : List Event) (s : State) : Prop where
  owner : s.ctx.owner = .idle
  phase : s.srch.phase = .idle
  found : s.srch.found = q.found + 1
  result : s.result = some ⟨.ok, (q.found + 1).setWidth 16⟩
  mem : s.mem = m
  env : s.env = es

/-- A completion of two armed entries brings the pair (R72, R202). -/
theorem agreedPair_mergeRx {p : Params} {x : Bool} {old pair : Slots} :
    agreedPair p x (mergeRx old pair 2) ↔ agreedPair p x pair := Iff.rfl

/-- A pending core action is taken while a search runs (R273). -/
theorem step_core {s t : State} {es : List Event} (hf : s.fault = none) (howner : s.ctx.owner = .search)
    (hphase : s.srch.phase ≠ .idle) (he : s.env = .core :: es)
    (hstep : searchStep (s.setEnv es) = .ok t) : step s = .next t := by
  rw [step_head hf he (by simp [eventEnabled, howner, hphase]), runEvent, hstep]
  rfl

section
variable {p : Params} {q : Srch} {ph : Phase} {i : Nat} {m : Memory} {es : List Event} {s t : State}
  {pair e : Slots} {x : Bool}

theorem UnderPass.phase (h : UnderPass p q ph i m es s) : s.srch.phase = ph := by
  rw [h.srch]

theorem UnderPass.bit (h : UnderPass p q ph i m es s) : s.srch.bit = BitVec.ofNat 7 (i + 1) := by
  rw [h.srch]

theorem UnderPass.coreStep (h : UnderPass p q ph i m (.core :: es) s) (hph : ph ≠ .idle)
    (hstep : searchStep (s.setEnv es) = .ok t) : step s = .next t :=
  step_core h.fault h.owner (by rwa [h.phase]) h.env hstep

/-- The completion of the exchange under way (R72). -/
theorem UnderPass.complete (h : UnderPass p q ph i m (.complete e :: es) s) (hbusy : s.sub.busy = true) :
    ∃ t, step s = .next t ∧ UnderPass p q ph i m es t ∧ t.sub.busy = false
      ∧ t.ctx.rx = mergeRx s.ctx.rx e s.sub.rxPending :=
  ⟨_, step_complete h.fault h.env hbusy, { h with env := rfl }, rfl, rfl⟩

/-- The read pair is sent (R202). -/
theorem UnderPass.pairStart (h : UnderPass p q .pairStart i m (.core :: es) s) :
    ∃ t, step s = .next t ∧ UnderPass p q .pairWait i m es t ∧ t.sub.busy = true
      ∧ t.sub.rxPending = 2 := by
  obtain ⟨hact, -⟩ := searchPairAndWaitActions (s.setEnv es)
  exact ⟨_, h.coreStep nofun (hact h.phase), { h with srch := by simp [h.srch], env := rfl }, rfl, rfl⟩

/-- The wait for the pair ends at once: the substrate is idle (R203). -/
theorem UnderPass.pairWait (h : UnderPass p q .pairWait i m (.core :: es) s)
    (hidle : s.sub.busy = false) :
    ∃ t, step s = .next t ∧ UnderPass p q .decide i m es t ∧ t.sub.busy = false
      ∧ t.ctx.rx = s.ctx.rx := by
  obtain ⟨-, hact, -⟩ := searchPairAndWaitActions (s.setEnv es)
  obtain ⟨hended, -⟩ := hact h.phase
  exact ⟨_, h.coreStep nofun (hended (.inl hidle)), { h with srch := by simp [h.srch], env := rfl },
    hidle, rfl⟩

/-- The agreed bit is recorded, and its write slot sent (R204, R206, R207). -/
theorem UnderPass.selectBit (h : UnderPass p q .decide i m (.core :: es) s) (hi : i < 64)
    (hidle : s.sub.busy = false) (hagreed : agreedPair p x s.ctx.rx)
    (hin : inWindow p (q.slotBase + i / 8) = true) :
    ∃ t, step s = .next t
      ∧ UnderPass p q .writeWait i (writeRomBit q.slotBase i x m) es t
      ∧ t.sub.busy = true := by
  obtain rfl := h.cfg
  obtain rfl := h.mem
  have hpos : s.srch.bit.toNat = i + 1 := by
    rw [h.bit, BitVec.toNat_ofNat]
    omega
  have haddr : curRomAddr (s.setEnv es) = q.slotBase + i / 8 := by
    have hslot : s.srch.out = q.out ∧ s.srch.found = q.found := by simp [h.srch]
    simp [curRomAddr, romByteAddr, Srch.slotBase, hpos, hslot]
  have hseen : rxSeen (s.setEnv es) = s.ctx.rx := rxSeen_idle hidle
  have hdrawn : rxDrawn (s.setEnv es) = s.setEnv es := rxDrawn_idle hidle
  have hact : searchStep (s.setEnv es) = searchSelect x (s.setEnv es) := by
    rw [searchStep_decide (s := s.setEnv es) h.phase, searchDecide_agreed (hseen ▸ hagreed), hdrawn]
  have hselect := hact.trans (searchSelect_eq_ok.2 ⟨haddr ▸ hin, rfl⟩)
  refine ⟨_, h.coreStep nofun hselect, { h with srch := by simp [h.srch], mem := ?_, env := rfl }, rfl⟩
  simp [haddr, romBitIndex, hpos, writeRomBit]

/-- A position before the last leads to the next one (R208). -/
theorem UnderPass.nextBit (h : UnderPass p q .writeWait i m (.core :: es) s) (hi : i + 1 < 64)
    (hidle : s.sub.busy = false) : ∃ t, step s = .next t ∧ UnderPass p q .pairStart (i + 1) m es t := by
  obtain ⟨-, -, hact⟩ := searchPairAndWaitActions (s.setEnv es)
  obtain ⟨-, hnext, -⟩ := hact h.phase
  have hbit : s.srch.bit < 64 := by
    rw [h.bit, BitVec.lt_def, BitVec.toNat_ofNat]
    exact (Nat.mod_le _ _).trans_lt hi
  refine ⟨_, h.coreStep nofun (hnext (.inl hidle) hbit), { h with srch := ?_, env := rfl }⟩
  simp [h.srch, BitVec.ofNat_add]

/-- Position 64 of a pass with no collision recorded ends the search (R208, R209). -/
theorem UnderPass.last (h : UnderPass p q .writeWait 63 m (.core :: es) s)
    (hcoll : q.currentCollision = 0) (hidle : s.sub.busy = false) :
    ∃ t, step s = .next t ∧ PassEnded q m es t := by
  obtain ⟨-, -, hact⟩ := searchPairAndWaitActions (s.setEnv es)
  obtain ⟨-, -, hlast, -⟩ := hact h.phase
  have hbit : 64 ≤ s.srch.bit := by rw [h.bit]; decide
  have hfound : s.srch.found = q.found := by rw [h.srch]
  refine ⟨_, h.coreStep nofun (hlast (.inl hidle) hbit (by simp [h.srch, hcoll])), ?_⟩
  exact ⟨rfl, rfl, by rw [← hfound]; rfl, by rw [← hfound]; rfl, h.mem, rfl⟩

/-- One position up to its wait for the write slot: the pair sent, received and awaited, its bit recorded,
the write slot sent and completed. -/
theorem UnderPass.position (h : UnderPass p q .pairStart i m (bitEvents pair e ++ es) s) (hi : i < 64)
    (hagreed : agreedPair p x pair) (hin : inWindow p (q.slotBase + i / 8) = true) :
    ∃ t, (∀ k, core.run (k + 5) s = core.run k t)
      ∧ UnderPass p q .writeWait i (writeRomBit q.slotBase i x m) (.core :: es) t
      ∧ t.sub.busy = false := by
  obtain ⟨s1, hs1, h1, hbusy1, harmed⟩ := h.pairStart
  obtain ⟨s2, hs2, h2, hidle2, hrx2⟩ := h1.complete hbusy1
  obtain ⟨s3, hs3, h3, hidle3, hrx3⟩ := h2.pairWait hidle2
  have hheard : agreedPair p x s3.ctx.rx := by
    rw [hrx3, hrx2, harmed]
    exact agreedPair_mergeRx.2 hagreed
  obtain ⟨s4, hs4, h4, hbusy4⟩ := h3.selectBit hi hidle3 hheard hin
  obtain ⟨t, ht, h5, hidle5, -⟩ := h4.complete hbusy4
  refine ⟨t, fun k => ?_, h5, hidle5⟩
  rw [core_run_of_step hs1, core_run_of_step hs2, core_run_of_step hs3, core_run_of_step hs4,
    core_run_of_step ht]

/-- The run of a pass from bit `i` to the end of the search. -/
theorem UnderPass.run (hcoll : q.currentCollision = 0)
    (hacc : Accessible p q.slotBase 8) {rom : List Bool} {pairs : List Slots}
    (hagreed : List.Forall₂ (agreedPair p) rom pairs) : ∀ {i : Nat} {m : Memory} {s : State}
    {writes : List Slots}, i < 64 → i + rom.length = 64 → writes.length = rom.length →
    UnderPass p q .pairStart i m (passEvents pairs writes ++ es) s →
    ∃ t, core.run (passEvents pairs writes).length s = .next t
      ∧ PassEnded q (writeRomBits q.slotBase i rom m) es t := by
  induction hagreed with
  | nil => exact fun hi hlen => absurd hlen hi.ne
  | @cons x pair rom pairs hpair hrest ih =>
    intro i m s writes hi hlen hwrites h
    obtain ⟨e, writes, rfl⟩ := List.exists_cons_of_length_eq_add_one hwrites
    simp only [List.length_cons, Nat.add_right_cancel_iff] at hlen hwrites
    rw [passEvents_cons, List.append_assoc] at h
    obtain ⟨u, hrun, hu, hidle⟩ := h.position hi hpair (hacc (i / 8) (by omega))
    rw [passEvents_cons, List.length_append, Nat.add_comm]
    by_cases hlast : i + 1 < 64
    · obtain ⟨v, hv, hnext⟩ := hu.nextBit hlast hidle
      obtain ⟨t, ht, hended⟩ := ih hlast (by omega) hwrites hnext
      exact ⟨t, ((hrun _).trans (core_run_of_step hv _)).trans ht, hended⟩
    · obtain rfl : i = 63 := by omega
      obtain rfl : rom = [] := List.eq_nil_of_length_eq_zero (by omega)
      obtain rfl := List.forall₂_nil_left_iff.1 hrest
      obtain ⟨t, ht, hended⟩ := hu.last hcoll hidle
      exact ⟨t, (hrun 1).trans (core_run_of_step ht 0), hended⟩

end

/-- Settles O38: the run of the pass writes the 64 bits of the ROM from bit 0 of the slot on. -/
theorem oneDevicePassRecordsItsRom : Obligations.OneDevicePassRecordsItsRom := by
  intro s rom pairs writes es base tape hinv hfault howner hphase hbit hcoll hrom hpairs hwrites hagreed
    hacc he
  have hagreed' : List.Forall₂ (agreedPair s.cfg) rom pairs :=
    List.forall₂_iff_get.2 ⟨hrom.trans hpairs.symm, hagreed⟩
  have hsrch : s.srch = { s.srch with phase := .pairStart, bit := 1 } := by rw [← hphase, ← hbit]
  have hstart : UnderPass s.cfg s.srch .pairStart 0 s.mem (tape ++ es) s :=
    ⟨rfl, hfault, howner, hsrch, rfl, he⟩
  obtain ⟨t, hrun, hended⟩ :=
    hstart.run hcoll hacc hagreed' (by decide) (by rw [hrom]) (hwrites.trans hrom.symm)
  have hlen : tape.length = 6 * 64 :=
    (passEvents_length (hwrites.trans hpairs.symm)).trans (congrArg _ hpairs)
  refine ⟨t, hrun, hlen, hended.owner, hended.phase, hended.env, hended.found, hended.result,
    fun i hi => ?_, fun x hx => ?_⟩
  · rw [hended.mem]
    have hread := romBit_writeRomBits (base := base) (i := 0) hinv.memory hi
    rwa [Nat.zero_add] at hread
  · rw [hended.mem]
    exact writeRomBits_read_outside hx rom (by rw [hrom])

end Sys2Proof.Machine
end

section
/-! SUPPORT. Proofs about the CRC cores (44_crc.md): both are one linear shift register, whose equations give
the equivalence of the datapaths and the two error-detection laws; and the operations CRC8, CRC16 and
CHECK_CRC16 over a buffer. -/

namespace Sys2Proof.Machine

/-! ## One bit of a reflected CRC register
Shift right, and fold the polynomial in when a 1 falls out: linear over GF(2), and injective when the
polynomial holds the register's top bit. -/

/-- One bit iteration of a reflected CRC register of any width (R240, R243). -/
def crcBit {w : Nat} (poly x : BitVec w) : BitVec w := if x.getLsbD 0 then (x >>> 1) ^^^ poly else x >>> 1

section
variable {w : Nat} (poly : BitVec w)

theorem crcBit_getLsbD (x : BitVec w) (i : Nat) :
    (crcBit poly x).getLsbD i = (x.getLsbD (1 + i) ^^ (x.getLsbD 0 && poly.getLsbD i)) := by
  unfold crcBit
  cases x.getLsbD 0 <;> simp

theorem crcBit_xor (x y : BitVec w) : crcBit poly (x ^^^ y) = crcBit poly x ^^^ crcBit poly y := by
  refine BitVec.eq_of_getLsbD_eq fun i _ => ?_
  simp only [crcBit_getLsbD, BitVec.getLsbD_xor, Bool.and_xor_distrib_right, Bool.xor_assoc,
    Bool.xor_left_comm]

theorem crcBit_iterate_xor (n : Nat) (x y : BitVec w) :
    (crcBit poly)^[n] (x ^^^ y) = (crcBit poly)^[n] x ^^^ (crcBit poly)^[n] y := by
  induction n generalizing x y with
  | zero => rfl
  | succ n ih => simp only [Function.iterate_succ_apply, crcBit_xor, ih]

/-- Shifting out zeros folds nothing in. -/
theorem crcBit_iterate_shiftRight {n : Nat} {x : BitVec w} (h : ∀ i < n, x.getLsbD i = false) :
    (crcBit poly)^[n] x = x >>> n := by
  induction n with
  | zero => simp
  | succ n ih =>
    have hout : (x >>> n).getLsbD 0 = false := by simpa using h n n.lt_succ_self
    rw [Function.iterate_succ_apply', ih fun i hi => h i (Nat.lt_succ_of_lt hi), crcBit, hout,
      if_neg Bool.false_ne_true, ← BitVec.shiftRight_add]

variable {poly}

/-- The top bit of the result tells which bit fell out, and the other bits are then the register's own. -/
theorem crcBit_injective (hpoly : poly.getLsbD (w - 1) = true) : Function.Injective (crcBit poly) := by
  intro x y h
  have hbit (i : Nat) : (x.getLsbD (1 + i) ^^ (x.getLsbD 0 && poly.getLsbD i)) =
      (y.getLsbD (1 + i) ^^ (y.getLsbD 0 && poly.getLsbD i)) := by
    rw [← crcBit_getLsbD, h, crcBit_getLsbD]
  have hout : x.getLsbD 0 = y.getLsbD 0 := by
    have htop := hbit (w - 1)
    rwa [hpoly, BitVec.getLsbD_of_ge x _ (by omega), BitVec.getLsbD_of_ge y _ (by omega), Bool.and_true,
      Bool.and_true, Bool.false_xor, Bool.false_xor] at htop
  refine BitVec.eq_of_getLsbD_eq fun i _ => ?_
  cases i with
  | zero => exact hout
  | succ i =>
    have hnext := hbit i
    rwa [hout, Bool.xor_left_inj, Nat.add_comm] at hnext

end

/-! ## Bytes through the register -/

/-- One input byte, folded into the low end of the register and shifted out. -/
def crcByte {w : Nat} (poly crc : BitVec w) (b : Byte) : BitVec w :=
  (crcBit poly)^[8] (crc ^^^ b.setWidth w)

theorem crcByte_zero {w : Nat} (poly : BitVec w) (b : Byte) :
    crcByte poly 0 b = (crcBit poly)^[8] (b.setWidth w) := by
  rw [crcByte, BitVec.ofNat_eq_ofNat, BitVec.zero_xor]

section
variable {w : Nat} {poly : BitVec w} (hpoly : poly.getLsbD (w - 1) = true)
include hpoly

theorem crcByte_injective_register (b : Byte) : Function.Injective (crcByte poly · b) := fun _ _ h =>
  (BitVec.xor_left_inj _).1 ((crcBit_injective hpoly).iterate 8 h)

theorem crcByte_injective_byte (hw : 8 ≤ w) (crc : BitVec w) : Function.Injective (crcByte poly crc) := by
  intro b c h
  have hwide := (BitVec.xor_right_inj _).1 ((crcBit_injective hpoly).iterate 8 h)
  have hbyte := congrArg (BitVec.setWidth 8) hwide
  rwa [BitVec.setWidth_setWidth_of_le _ hw, BitVec.setWidth_setWidth_of_le _ hw, BitVec.setWidth_eq,
    BitVec.setWidth_eq] at hbyte

/-- Different registers stay different over equal bytes. -/
theorem foldl_crcByte_injective (bytes : List Byte) : Function.Injective (bytes.foldl (crcByte poly)) := by
  induction bytes with
  | nil => exact Function.injective_id
  | cons b bytes ih => exact ih.comp (crcByte_injective_register hpoly b)

/-- R248 for any register at least a byte wide: inputs that differ in one byte have different CRCs. -/
theorem foldl_crcByte_ne (hw : 8 ≤ w) (seed : BitVec w) (front back : List Byte) {b c : Byte}
    (hne : b ≠ c) : (front ++ b :: back).foldl (crcByte poly) seed ≠
      (front ++ c :: back).foldl (crcByte poly) seed := by
  rw [List.foldl_append, List.foldl_append]
  exact fun h => hne (crcByte_injective_byte hpoly hw _ (foldl_crcByte_injective hpoly back h))

end

/-! ## The CRC-8 datapaths (R240, R241) -/

/-- The bitwise datapath shifts the input byte beside the register; what is left of the byte is still to
be folded in. -/
theorem crc8FoldBits_eq (poly : Byte) (n : Nat) (crc b : Byte) :
    crc8FoldBits poly n crc b = (crcBit poly)^[n] (crc ^^^ b) ^^^ b >>> n := by
  induction n generalizing crc b with
  | zero => simp [crc8FoldBits]
  | succ n ih =>
    have hstep : (if (crc ^^^ b).getLsbD 0 then crc >>> 1 ^^^ poly else crc >>> 1) ^^^ b >>> 1 =
        crcBit poly (crc ^^^ b) := by
      rw [crcBit, BitVec.ushiftRight_xor_distrib]
      split_ifs
      · ac_rfl
      · rfl
    rw [crc8FoldBits, ih, hstep, ← BitVec.shiftRight_add, Nat.add_comm 1 n, Function.iterate_succ_apply]

theorem crc8ByteBitwise_eq (poly crc b : Byte) : crc8ByteBitwise poly crc b = crcByte poly crc b := by
  rw [crc8ByteBitwise, crc8FoldBits_eq, BitVec.ushiftRight_eq_zero (by decide), BitVec.xor_zero, crcByte,
    BitVec.setWidth_eq]

theorem crc8ByteBitwise_zero (poly b : Byte) : crc8ByteBitwise poly 0 b = (crcBit poly)^[8] b := by
  rw [crc8ByteBitwise_eq, crcByte_zero, BitVec.setWidth_eq]

/-- The printed column `LO` is the one R241 recomputes for any other polynomial. -/
theorem crc8LoTable_recomputed : ∀ n : BitVec 4,
    crc8LoTable[n.toNat] = crc8ByteBitwise 0x8C 0 (n.setWidth 8) := by decide

/-- The printed column `HI` is the one R241 recomputes for any other polynomial. -/
theorem crc8HiTable_recomputed : ∀ n : BitVec 4,
    crc8HiTable[n.toNat] = crc8ByteBitwise 0x8C 0 (n.setWidth 8 <<< 4) := by decide

theorem crc8Lo_eq (poly : Byte) (n : BitVec 4) : crc8Lo poly n = (crcBit poly)^[8] (n.setWidth 8) := by
  rw [← crc8ByteBitwise_zero, crc8Lo]
  split_ifs with hp
  · rw [hp, crc8LoTable_recomputed]
  · rfl

theorem crc8Hi_eq (poly : Byte) (n : BitVec 4) :
    crc8Hi poly n = (crcBit poly)^[8] (n.setWidth 8 <<< 4) := by
  rw [← crc8ByteBitwise_zero, crc8Hi]
  split_ifs with hp
  · rw [hp, crc8HiTable_recomputed]
  · rfl

theorem byte_eq_nibbles (x : Byte) :
    (x.extractLsb' 0 4).setWidth 8 ^^^ (x.extractLsb' 4 4).setWidth 8 <<< 4 = x := by
  refine BitVec.eq_of_getLsbD_eq fun i hi => ?_
  interval_cases i <;> simp

/-- The register is linear, so the columns of the two nibbles add up to the column of the byte. -/
theorem crc8ByteTable_eq (poly crc b : Byte) : crc8ByteTable poly crc b = crcByte poly crc b := by
  rw [crc8ByteTable, crc8Lo_eq, crc8Hi_eq, ← crcBit_iterate_xor, byte_eq_nibbles, crcByte,
    BitVec.setWidth_eq]

theorem crc8Byte_eq (p : Params) : crc8Byte p = crcByte p.crc8Poly := by
  funext crc b
  unfold crc8Byte
  cases p.crc8Impl with
  | bitwise => exact crc8ByteBitwise_eq _ _ _
  | table => exact crc8ByteTable_eq _ _ _

theorem crc8_eq (p : Params) (bytes : List Byte) : crc8 p bytes = bytes.foldl (crcByte p.crc8Poly) 0 := by
  rw [crc8, crc8Byte_eq]

/-- Settles O39: either datapath is the register with the configuration's polynomial. -/
theorem crc8DatapathsAgree : Obligations.Crc8DatapathsAgree := fun p bytes =>
  (crc8_eq { p with crc8Impl := .bitwise } bytes).trans (crc8_eq { p with crc8Impl := .table } bytes).symm

/-! ## The CRC-16 forms (R243) -/

theorem crc16FoldBits_eq (poly : Half) (n : Nat) (crc : Half) :
    crc16FoldBits poly n crc = (crcBit poly)^[n] crc := by
  induction n generalizing crc with
  | zero => rfl
  | succ n ih => exact ih _

theorem crc16ByteBitwise_eq (poly : Half) : crc16ByteBitwise poly = crcByte poly := by
  funext crc b
  exact crc16FoldBits_eq poly 8 _

theorem half_eq_bytes (x : Half) : (x >>> 8) <<< 8 ^^^ (x.setWidth 8).setWidth 16 = x := by
  refine BitVec.eq_of_getLsbD_eq fun i hi => ?_
  interval_cases i <;> simp

/-- The register's high byte only moves down; its low byte meets the input byte. -/
theorem crcByte_high_low (poly crc : Half) (b : Byte) :
    crcByte poly crc b = crc >>> 8 ^^^ crcByte poly 0 (crc.setWidth 8 ^^^ b) := by
  have hhigh : (crcBit poly)^[8] ((crc >>> 8) <<< 8) = crc >>> 8 := by
    rw [crcBit_iterate_shiftRight poly fun i hi => by simp [hi]]
    refine BitVec.eq_of_getLsbD_eq fun i hi => ?_
    interval_cases i <;> simp
  calc crcByte poly crc b
      = (crcBit poly)^[8] ((crc >>> 8) <<< 8 ^^^ (crc.setWidth 8 ^^^ b).setWidth 16) := by
        rw [BitVec.setWidth_xor, ← BitVec.xor_assoc, half_eq_bytes, crcByte]
    _ = crc >>> 8 ^^^ crcByte poly 0 (crc.setWidth 8 ^^^ b) := by
        rw [crcBit_iterate_xor, hhigh, crcByte_zero]

/-- The odd-parity form splits the register in the same way. -/
theorem crc16ByteOddParity_high_low (crc : Half) (b : Byte) :
    crc16ByteOddParity crc b = crc >>> 8 ^^^ crc16ByteOddParity 0 (crc.setWidth 8 ^^^ b) := by
  have hcdata : ((crc.setWidth 8 ^^^ b).setWidth 16 ^^^ 0) &&& 0x00FF =
      (b.setWidth 16 ^^^ crc) &&& 0x00FF := by
    refine BitVec.eq_of_getLsbD_eq fun i hi => ?_
    interval_cases i <;> simp [Bool.xor_comm]
  simp only [crc16ByteOddParity, hcdata]
  split_ifs
  · simp [BitVec.xor_assoc]
  · simp [BitVec.xor_assoc]

/-- The two forms agree on the 256 input bytes from a register of 0. -/
theorem crc16ByteOddParity_zero : ∀ b : Byte, crc16ByteOddParity 0 b = crcByte 0xA001 0 b := by
  decide

theorem crc16ByteOddParity_eq : crc16ByteOddParity = crcByte 0xA001 := by
  funext crc b
  rw [crc16ByteOddParity_high_low, crc16ByteOddParity_zero, ← crcByte_high_low]

/-- Settles O40: both forms are the register with the default polynomial. -/
theorem crc16FormsAgree : Obligations.Crc16FormsAgree := by
  intro bytes seed
  rw [crc16ByteOddParity_eq, crc16ByteBitwise_eq]

theorem crc16Byte_eq (p : Params) : crc16Byte p = crcByte p.crc16Poly := by
  funext crc b
  rw [crc16Byte]
  split_ifs with hp
  · rw [hp, crc16ByteOddParity_eq]
  · rw [crc16ByteBitwise_eq]

theorem crc16_eq (p : Params) (bytes : List Byte) (seed : Half) :
    crc16 p bytes seed = bytes.foldl (crcByte p.crc16Poly) seed := by
  rw [crc16, crc16Byte_eq]

/-! ## Error detection (R247, R248) -/

/-- Folding in a byte leaves 0 exactly when the byte is the register. -/
theorem crcByte_eq_zero_iff {poly : Byte} (hpoly : poly.getLsbD 7 = true) (crc b : Byte) :
    crcByte poly crc b = 0 ↔ crc = b := by
  have hzero : crcByte poly crc crc = 0 := by
    rw [crcByte, BitVec.setWidth_eq, BitVec.xor_self, crcBit_iterate_shiftRight poly fun _ _ => by simp]
    rfl
  rw [← hzero, (crcByte_injective_byte hpoly le_rfl crc).eq_iff, eq_comm]

/-- Settles O44: the trailing byte is folded into the CRC-8 of the bytes before it. -/
theorem romCodeCheckIsZeroRemainder : Obligations.RomCodeCheckIsZeroRemainder := by
  intro p code c hp
  rw [crc8_eq, crc8_eq, List.foldl_append, List.foldl_cons, List.foldl_nil,
    crcByte_eq_zero_iff (by rw [hp]; rfl)]

theorem half_eq_append (x : Half) : x.extractLsb' 8 8 ++ x.extractLsb' 0 8 = x :=
  BitVec.extractLsb'_append_extractLsb'

/-- The two inverted bytes determine the CRC-16 they match. -/
theorem invertedMatch_unique {c d : Half} {i0 i1 : Byte} (hc : invertedMatch c i0 i1 = true)
    (hd : invertedMatch d i0 i1 = true) : c = d := by
  simp only [invertedMatch, Bool.and_eq_true, beq_iff_eq] at hc hd
  obtain ⟨hlow, hhigh⟩ := hc
  obtain ⟨hlow', hhigh'⟩ := hd
  have hnot : ~~~c = ~~~d := by
    rw [← half_eq_append (~~~c), ← hlow, ← hhigh, hlow', hhigh', half_eq_append]
  exact BitVec.not_inj.1 hnot

theorem flipped_ne (b : Byte) {k : Nat} (hk : k < 8) : b ≠ b ^^^ (1#8 <<< k) := by
  intro h
  have hbit := congrArg (·.getLsbD k) h
  simp [hk] at hbit

/-- Settles O45: the flipped byte differs, so both registers end different, and the inverted bytes match at
most one of them. -/
theorem singleBitFlipIsDetected : Obligations.SingleBitFlipIsDetected := by
  intro p front back b k seed i0 i1 h8 h16 hk x y
  have hne := flipped_ne b hk
  have hcrc16 : crc16 p x seed ≠ crc16 p y seed := by
    rw [crc16_eq, crc16_eq]
    exact foldl_crcByte_ne (by rw [h16]; rfl) (by decide) seed front back hne
  refine ⟨?_, hcrc16, fun hx => Bool.eq_false_iff.2 fun hy => hcrc16 (invertedMatch_unique hx hy)⟩
  rw [crc8_eq, crc8_eq]
  exact foldl_crcByte_ne (by rw [h8]; rfl) le_rfl 0 front back hne

/-! ## A host step that reads a buffer and delivers a value -/

/-- The value is that of the buffer's bytes when they may all be accessed (20_memory.md R62). -/
theorem outcomeOf_readBytes_deliver {a la : Nat} {s : State} (value : List Byte → Half)
    (hacc : Accessible s.cfg a la) :
    outcomeOf (readBytes a la s >>= fun bytes => pure (deliver .ok (value bytes) s)) =
      .next { s with result := some ⟨.ok, value (bytesAt s.mem a la)⟩ } := by
  rw [readBytes_accessible hacc]
  rfl

/-- A step that begins with a buffer faults at the buffer's first address outside the window (R61). -/
theorem outcomeOf_readBytes_faults {a la k : Nat} {s : State} {body : List Byte → Except Fault State}
    (hk : k < la) (hacc : Accessible s.cfg a k) (hbad : inWindow s.cfg (a + k) = false) :
    outcomeOf (readBytes a la s >>= body) = .fault (.memRange (a + k) .read) := by
  rw [readBytes_faults hk hacc hbad]
  rfl

theorem accessible_zero (p : Params) (a : Nat) : Accessible p a 0 := fun _ hk => absurd hk (Nat.not_lt_zero _)

theorem bytesAt_append (m : Memory) (a n k : Nat) :
    bytesAt m a (n + k) = bytesAt m a n ++ bytesAt m (a + n) k := by
  simp only [bytesAt, List.range_add, List.map_append, List.map_map, Function.comp_def, Nat.add_assoc]

/-! ## CRC8 (R242) -/

theorem exec_crc8 {a la : Nat} {s : State} (hready : HostReady s) :
    exec (.crc8 a la) s = outcomeOf (readBytes a la s >>= fun bytes =>
      pure (deliver .ok ((crc8 s.cfg bytes).setWidth 16) s)) :=
  hostStep_ready hready rfl (by decide)

/-- Settles O41: CRC8 reads a buffer, the empty one included, and delivers its CRC-8. -/
theorem crc8Request : Obligations.Crc8Request := by
  intro a la s hready
  simp only [exec_crc8 hready]
  exact ⟨outcomeOf_readBytes_deliver _, outcomeOf_readBytes_deliver _ (accessible_zero _ a),
    fun _ hk => outcomeOf_readBytes_faults hk⟩

/-! ## CRC16 (R244) -/

theorem legalOp_crc16 (p : Params) : legalOp p 0x06 = p.featureCrc16 := by
  simp [legalOp]

theorem exec_crc16 {a la : Nat} {seed : Half} {s : State} (hready : HostReady s)
    (hbuilt : s.cfg.featureCrc16 = true) :
    exec (.crc16 a la seed) s = outcomeOf (readBytes a la s >>= fun bytes =>
      pure (deliver .ok (crc16 s.cfg bytes seed) s)) :=
  hostStep_ready hready ((legalOp_crc16 _).trans hbuilt) (by decide)

/-- The seed is the register, so a CRC is continued from the CRC of the bytes before. -/
theorem crc16_append (p : Params) (front back : List Byte) (seed : Half) :
    crc16 p (front ++ back) seed = crc16 p back (crc16 p front seed) := List.foldl_append

/-- Settles O42: CRC16 reads a buffer and delivers its CRC-16, or is illegal where it is not built in. -/
theorem crc16Request : Obligations.Crc16Request := by
  intro a la seed s hready
  refine ⟨fun hbuilt => ?_, fun habsent => hostStep_illegal hready ((legalOp_crc16 _).trans habsent),
    fun n => by rw [bytesAt_append, crc16_append]⟩
  simp only [exec_crc16 hready hbuilt]
  exact ⟨outcomeOf_readBytes_deliver _, outcomeOf_readBytes_deliver _ (accessible_zero _ a),
    fun _ hk => outcomeOf_readBytes_faults hk⟩

/-! ## CHECK_CRC16 (R245, R246) -/

theorem legalOp_checkCrc16 (p : Params) : legalOp p 0x07 = p.featureCrc16 := by
  simp [legalOp]

theorem exec_checkCrc16 {a la b : Nat} {seed : Half} {s : State} (hready : HostReady s)
    (hbuilt : s.cfg.featureCrc16 = true) :
    exec (.checkCrc16 a la b seed) s = outcomeOf (readBytes a la s >>= fun bytes =>
      memRead b s >>= fun i0 => memRead (b + 1) s >>= fun i1 =>
        pure (deliver .ok (if checkCrc16 s.cfg bytes i0 i1 seed then 1 else 0) s)) :=
  hostStep_ready hready ((legalOp_checkCrc16 _).trans hbuilt) (by decide)

theorem exec_checkCrc16_accessible {a la b : Nat} {seed : Half} {s : State} (hready : HostReady s)
    (hbuilt : s.cfg.featureCrc16 = true) (hpayload : Accessible s.cfg a la)
    (hinverted : Accessible s.cfg b 2) :
    exec (.checkCrc16 a la b seed) s = .next { s with result := some ⟨.ok,
      if checkCrc16 s.cfg (bytesAt s.mem a la) (s.mem.read b) (s.mem.read (b + 1)) seed then 1 else 0⟩ } := by
  have hlow : inWindow s.cfg b = true := hinverted 0 (by decide)
  have hhigh : inWindow s.cfg (b + 1) = true := hinverted 1 (by decide)
  rw [exec_checkCrc16 hready hbuilt, readBytes_accessible hpayload, ok_bind,
    memRead_eq_ok.2 ⟨hlow, rfl⟩, ok_bind, memRead_eq_ok.2 ⟨hhigh, rfl⟩]
  rfl

theorem exec_checkCrc16_inverted_faults {a la b k : Nat} {seed : Half} {s : State} (hready : HostReady s)
    (hbuilt : s.cfg.featureCrc16 = true) (hk : k < 2) (hpayload : Accessible s.cfg a la)
    (hinverted : Accessible s.cfg b k) (hbad : inWindow s.cfg (b + k) = false) :
    exec (.checkCrc16 a la b seed) s = .fault (.memRange (b + k) .read) := by
  rw [exec_checkCrc16 hready hbuilt, readBytes_accessible hpayload, ok_bind]
  obtain rfl | rfl : k = 0 ∨ k = 1 := by omega
  · rw [Nat.add_zero] at hbad ⊢
    rw [memRead_eq_error.2 ⟨hbad, rfl⟩]
    rfl
  · have hlow : inWindow s.cfg b = true := hinverted 0 Nat.one_pos
    rw [memRead_eq_ok.2 ⟨hlow, rfl⟩, ok_bind, memRead_eq_error.2 ⟨hbad, rfl⟩]
    rfl

theorem checkCrc16_iff {p : Params} {bytes : List Byte} {i0 i1 : Byte} {seed : Half} :
    checkCrc16 p bytes i0 i1 seed = true ↔ i0 = (~~~ crc16 p bytes seed).extractLsb' 0 8
      ∧ i1 = (~~~ crc16 p bytes seed).extractLsb' 8 8 := by
  simp only [checkCrc16, invertedMatch, Bool.and_eq_true, beq_iff_eq]

/-- Settles O43: the payload and then the two inverted bytes are read, and the value says whether they
match; where it is not built in CHECK_CRC16 is illegal. -/
theorem checkCrc16Request : Obligations.CheckCrc16Request := by
  intro a la b seed s hready
  refine ⟨fun hbuilt => ⟨fun hpayload hinverted => ?_, fun k hk hacc hbad => ?_,
    fun _ => exec_checkCrc16_inverted_faults hready hbuilt⟩,
    fun habsent => hostStep_illegal hready ((legalOp_checkCrc16 _).trans habsent)⟩
  · simp only [exec_checkCrc16_accessible hready hbuilt hpayload hinverted]
    exact ⟨fun hmatch => by rw [if_pos (checkCrc16_iff.2 hmatch)],
      fun hmatch => by rw [if_neg (mt checkCrc16_iff.1 hmatch)]⟩
  · rw [exec_checkCrc16 hready hbuilt, outcomeOf_readBytes_faults hk hacc hbad]

end Sys2Proof.Machine
end

section
/-! SUPPORT. Proofs about the control of host requests (45_control.md): which requests overlap, what CLEAR
leaves, which transition a request is, who moves during a search, and what the stateless operations read. -/

namespace Sys2Proof.Machine

/-! ## The ownership table (R271) -/

/-- The cells of the table that say `Overlap`, in the columns of an owner that lets the host step. -/
theorem ownerAllows_eq_false {op : Byte} {o : Owner} (ho : o ≠ .search) : ownerAllows op o = false ↔
    (op = 0x02 ∧ o = .transfer) ∨ (op = 0x03 ∧ o = .reset)
      ∨ (op = 0x04 ∧ (o = .reset ∨ o = .transfer)) := by
  by_cases hother : op ≠ 0x02 ∧ op ≠ 0x03 ∧ op ≠ 0x04
  · rw [ownerAllows_other hother]
    exact iff_of_false (by simp [ho]) (by tauto)
  · obtain rfl | rfl | rfl : op = 0x02 ∨ op = 0x03 ∨ op = 0x04 := by tauto
    all_goals cases o <;> simp at ho ⊢

/-- Settles O46: a legal request is decided by its cell of the table, and past that check its own step does
not raise an overlap. -/
theorem ownershipTable : Obligations.OwnershipTable := by
  intro i s hready hop
  obtain ⟨body, hexec, hmem⟩ := exec_eq_hostStep i s
  obtain ⟨hfault, howner⟩ := hready
  dsimp only
  rw [hexec, ← ownerAllows_eq_false howner, Bool.not_eq_false]
  refine ⟨hostStep_overlap ⟨hfault, howner⟩ hop, fun hallowed op o h => ?_⟩
  rw [hostStep_allowed hfault howner hop hallowed] at h
  obtain ⟨_, _, hr⟩ := hmem _ (outcomeOf_eq_fault.1 h)
  cases hr

/-! ## CLEAR (R272) -/

theorem exec_clear {s : State} (hready : HostReady s) :
    exec .clear s = .next (deliver .ok 0 ((s.setCtx (clearCtx s.ctx)).setSrch Srch.clear)) :=
  hostStep_ready hready rfl (by decide)

/-- Settles O47: the host still has a step after a CLEAR, and a second one finds every register clear. -/
theorem clearReturnsTheContextToIdle : Obligations.ClearReturnsTheContextToIdle := by
  intro s hready
  exact ⟨exec_clear hready, exec_clear ⟨hready.1, nofun⟩⟩

/-! ## A request as a transition (R270, R273) -/

/-- A request is refused only when the host has no step. -/
theorem exec_ne_refused {i : Instr} {s : State} (hready : HostReady s) (r : Refusal) :
    exec i s ≠ .refused r := by
  obtain ⟨hfault, howner⟩ := hready
  obtain ⟨body, hexec, -⟩ := exec_eq_hostStep i s
  simp only [hexec, hostStep, hfault, if_neg howner]
  split_ifs
  · nofun
  · nofun
  · cases body <;> nofun

/-- Settles O48: the request is the enabled action at the head of the list, and is taken as a transition. -/
theorem stepRunsTheDecodedRequest : Obligations.StepRunsTheDecodedRequest := by
  intro s w es i hready he hdecode
  have hstep : step s = commit (s.setEnv es) (exec i (s.setEnv es)) := by
    rw [step_request hready he, runRequest, State.setEnv_cfg, hdecode]
  exact ⟨fun t hexec => hstep.trans (congrArg (commit _) hexec),
    fun r hexec => hstep.trans (congrArg (commit _) hexec), exec_ne_refused hready⟩

/-! ## A search blocks the host (R273, R340) -/

theorem exec_blocked {i : Instr} {s : State} (hf : s.fault = none) (howner : s.ctx.owner = .search) :
    exec i s = .refused .hostBlocked := by
  obtain ⟨body, hexec, -⟩ := exec_eq_hostStep i s
  simp [hexec, hostStep, hf, howner]

/-- No action is taken when none is enabled. -/
theorem takeEnabled_eq_none {s : State} {es : List Event} (h : ∀ e ∈ es, eventEnabled s e = false) :
    takeEnabled s es = none := by
  induction es with
  | nil => rfl
  | cons e es ih =>
    obtain ⟨he, hes⟩ := List.forall_mem_cons.1 h
    simp [takeEnabled, he, ih hes]

/-- With no pending action enabled the core steps by itself during a search. -/
theorem step_search_alone {s : State} (hf : s.fault = none) (howner : s.ctx.owner = .search)
    (hwaits : ∀ e ∈ s.env, eventEnabled s e = false) :
    step s = commit s (outcomeOf (searchStep s)) := by
  simp [step, systemStep, hf, takeEnabled_eq_none hwaits, runAlone, howner]

/-- Settles O51: a search disables every action of the host, so they all wait and the core steps. -/
theorem hostIsBlockedDuringSearch : Obligations.HostIsBlockedDuringSearch := by
  intro s i hf howner
  refine ⟨exec_blocked hf howner, fun hhost => ?_⟩
  have hwaits : ∀ e ∈ s.env, eventEnabled s e = false := by
    intro e he
    obtain ⟨w, rfl⟩ | ⟨a, v, rfl⟩ := hhost e he <;> simp [eventEnabled, howner]
  rw [step_search_alone hf howner hwaits]
  refine ⟨fun t hsearch => ?_, fun r hsearch => ?_⟩ <;> rw [hsearch] <;> rfl

/-! ## The stateless operations (R271, R242, R244, R246, R124, R125) -/

@[simp] theorem deliver_mem (st : Status) (v : Half) (s : State) : (deliver st v s).mem = s.mem := rfl

/-- The computation reads the parameters and memory, and no register. -/
def ReadsMemoryOnly {α : Type} (x : State → Except Fault α) : Prop :=
  ∀ ⦃s u : State⦄, u.cfg = s.cfg → u.mem = s.mem → x u = x s

theorem ReadsMemoryOnly.ok {α : Type} (a : α) : ReadsMemoryOnly fun _ => .ok a := fun _ _ _ _ => rfl

theorem ReadsMemoryOnly.bind {α β : Type} {x : State → Except Fault α} {f : α → State → Except Fault β}
    (hx : ReadsMemoryOnly x) (hf : ∀ a, ReadsMemoryOnly (f a)) :
    ReadsMemoryOnly fun s => x s >>= fun a => f a s := by
  intro s u hcfg hmem
  simp only [hx hcfg hmem, hf _ hcfg hmem]

theorem memRead_readsMemoryOnly (a : Nat) : ReadsMemoryOnly (memRead a) := by
  intro s u hcfg hmem
  rw [memRead, memRead, hcfg, hmem]

theorem readBytes_readsMemoryOnly (n : Nat) : ∀ a : Nat, ReadsMemoryOnly (readBytes a n) := by
  induction n with
  | zero => exact fun _ => .ok []
  | succ n ih =>
    exact fun a => (memRead_readsMemoryOnly a).bind fun b => (ih (a + 1)).bind fun _ => .ok _

theorem readSlots_readsMemoryOnly (a : Nat) : ReadsMemoryOnly (readSlots a) := by
  intro s u hcfg hmem
  simp only [readSlots, memRead_readsMemoryOnly _ hcfg hmem]

/-- CRC8, CRC16, CHECK_CRC16 and DECODE read operands in memory, whatever the registers hold, and deliver a
value computed from them. -/
theorem exec_delivers_value {i : Instr} (hop : 0x05 ≤ i.opcode) (hread : i.opcode ≠ 0x08) :
    ∃ (α : Type) (operands : State → Except Fault α) (value : Params → α → Half),
      ReadsMemoryOnly operands ∧ ∀ s, exec i s =
        hostStep i.opcode s (operands s >>= fun x => .ok (deliver .ok (value s.cfg x) s)) := by
  cases i with
  | clear | reset | send | search => simp [Instr.opcode] at hop
  | encode => exact absurd rfl hread
  | crc8 a la =>
    exact ⟨_, _, fun p bytes => (crc8 p bytes).setWidth 16, readBytes_readsMemoryOnly la a, fun _ => rfl⟩
  | crc16 a la seed =>
    exact ⟨_, _, fun p bytes => crc16 p bytes seed, readBytes_readsMemoryOnly la a, fun _ => rfl⟩
  | checkCrc16 a la b seed =>
    refine ⟨List Byte × Byte × Byte, fun s => readBytes a la s >>= fun bytes => memRead b s >>= fun i0 =>
        memRead (b + 1) s >>= fun i1 => .ok (bytes, i0, i1),
      fun p x => if checkCrc16 p x.1 x.2.1 x.2.2 seed then 1 else 0,
      (readBytes_readsMemoryOnly la a).bind fun _ => (memRead_readsMemoryOnly b).bind fun _ =>
        (memRead_readsMemoryOnly (b + 1)).bind fun _ => .ok _, fun s => ?_⟩
    simp only [bind_assoc]
    rfl
  | decode a =>
    exact ⟨_, _, fun p x => (decodeByte p x).setWidth 16, readSlots_readsMemoryOnly a, fun _ => rfl⟩

/-- What a stateless request that answers leaves: memory, all of it but for ENCODE, and a result, both the
same from every state with these parameters and this memory. -/
def StatelessEffect (i : Instr) (s t : State) : Prop :=
  t = { s with mem := t.mem, result := t.result }
  ∧ (i.opcode ≠ 0x08 → t.mem = s.mem)
  ∧ ∀ u, HostReady u → u.cfg = s.cfg → u.mem = s.mem →
      exec i u = .next { u with mem := t.mem, result := t.result }

theorem exec_encode_statelessEffect {v : Byte} {a : Nat} {s t : State}
    (h : exec (.encode v a) s = .next t) : StatelessEffect (.encode v a) s t := by
  obtain ⟨m, hm, hend⟩ := bind_eq_ok.1 (hostStep_body h)
  obtain ⟨hacc, rfl⟩ := writeBytes_eq_ok.1 hm
  cases hend
  refine ⟨rfl, fun hread => absurd rfl hread, fun u hready hcfg hmem => ?_⟩
  rw [exec_encode_accessible hready (hcfg ▸ hacc), hcfg, hmem]
  rfl

theorem exec_value_statelessEffect {i : Instr} {s t : State} (hop : 0x05 ≤ i.opcode)
    (hread : i.opcode ≠ 0x08) (h : exec i s = .next t) : StatelessEffect i s t := by
  obtain ⟨α, operands, value, hlocal, hexec⟩ := exec_delivers_value hop hread
  obtain ⟨-, -, hlegal, -, hbody⟩ := hostStep_eq_next.1 ((hexec s).symm.trans h)
  obtain ⟨x, hx, hend⟩ := bind_eq_ok.1 hbody
  cases hend
  refine ⟨rfl, fun _ => rfl, fun u hready hcfg hmem => ?_⟩
  rw [hexec, hostStep_ready hready (hcfg ▸ hlegal) (by bv_omega), hlocal hcfg hmem, hx, ok_bind,
    deliver_mem, deliver_result, ← hmem, ← hcfg]
  rfl

/-- Settles O54: ENCODE writes what it computes from its operands and the parameters; the others deliver a
value of the parameters and memory. -/
theorem statelessRequestsTouchNoRegister : Obligations.StatelessRequestsTouchNoRegister := by
  intro i s t hop h
  have heffect : StatelessEffect i s t := by
    by_cases hread : i.opcode = 0x08
    · cases i with
      | encode => exact exec_encode_statelessEffect h
      | _ => simp [Instr.opcode] at hread
    · exact exec_value_statelessEffect hop hread h
  obtain ⟨hframe, hmem, hsame⟩ := heffect
  rw [hframe]
  exact ⟨rfl, rfl, rfl, rfl, rfl, rfl, rfl, rfl, fun hread x => congrArg (Memory.read · x) (hmem hread), hsame⟩

end Sys2Proof.Machine
end

section
/-! SUPPORT. Proofs about model faults (60_exceptions.md R302, R303): only the recording of a fault writes
the recorded fault, and once it is there nothing steps. -/

namespace Sys2Proof.Machine

/-! ## Only a recorded fault writes the fault (R302) -/

@[simp] theorem terminate_fault (n : Byte) (s : State) : (terminate n s).fault = s.fault := rfl

theorem searchPass_fault {s t : State} (h : searchPass s = .ok t) : t.fault = s.fault := by
  obtain ⟨-, rfl⟩ | ⟨-, st, u, hstep, hend⟩ := searchPass_cases h
  · rfl
  · obtain ⟨-, -, -, -, hfault, -⟩ := transferStep_frame hstep
    obtain ⟨-, rfl⟩ | ⟨-, rfl⟩ | ⟨-, rfl⟩ := hend <;> exact hfault

theorem searchPairWait_fault (s : State) : (searchPairWait s).fault = s.fault := by
  obtain heq | heq := searchPairWait_cases s <;> simp [heq]

theorem searchDecide_fault {s t : State} (h : searchDecide s = .ok t) : t.fault = s.fault := by
  obtain rfl | ⟨sel, u, hsel, hu⟩ := searchDecide_cases h
  · exact rxDrawn_fault s
  · obtain ⟨-, rfl⟩ := searchSelect_eq_ok.1 hsel
    obtain rfl | rfl := hu <;> exact rxDrawn_fault s

theorem searchWriteWait_fault (s : State) : (searchWriteWait s).fault = s.fault := by
  obtain heq | ⟨-, heq⟩ | heq | ⟨-, heq⟩ := searchWriteWait_cases s <;> simp [heq]

/-- No phase of a search writes the recorded fault. -/
theorem searchStep_fault {s t : State} (h : searchStep s = .ok t) : t.fault = s.fault := by
  unfold searchStep at h
  split at h
  · cases h; rfl
  · exact searchPass_fault h
  · cases h; rfl
  · cases h; exact searchPairWait_fault s
  · exact searchDecide_fault h
  · cases h; exact searchWriteWait_fault s

/-- A transition keeps the recorded fault, or does nothing but record one. -/
theorem Transition.fault_kept_or_recorded {s t : State} (h : Transition s t) :
    t.fault = s.fault ∨ ∃ r, t = recordFault r s := by
  cases h with
  | request _ hexec => exact .inl (exec_effect hexec).fault_eq
  | core hsearch => exact .inl (searchStep_fault hsearch)
  | fault r => exact .inr ⟨r, rfl⟩
  | hostWrite | complete | tick | stay => exact .inl rfl

/-- Settles O49: a step starts with no fault recorded, so one that leaves a fault is the transition that
records it. -/
theorem faultingStepOnlyRecordsTheFault : Obligations.FaultingStepOnlyRecordsTheFault := by
  intro s t r h hfault
  obtain ⟨hnone, -⟩ := step_cases h
  obtain ⟨es, htrans⟩ := step_transition h
  obtain hkept | ⟨q, rfl⟩ := htrans.fault_kept_or_recorded
  · rw [hkept, State.setEnv_fault, hnone] at hfault
    cases hfault
  · cases hfault
    rfl

/-! ## A recorded fault is terminal (R303) -/

theorem step_of_fault {s : State} {r : Fault} (h : s.fault = some r) : step s = .fault r := by
  simp only [step, systemStep, h]

theorem hostStep_of_fault {op : Byte} {s : State} {r : Fault} {body : Except Fault State}
    (h : s.fault = some r) : hostStep op s body = .fault r := by
  simp only [hostStep, h]

/-- Settles O50: the recorded fault is what the system's step, and every operation's host step, check
first. -/
theorem recordedFaultIsTerminal : Obligations.RecordedFaultIsTerminal := by
  intro s r i h
  obtain ⟨body, hexec, -⟩ := exec_eq_hostStep i s
  exact ⟨step_of_fault h, hexec.trans (hostStep_of_fault h)⟩

end Sys2Proof.Machine
end

section
/-! FAMILY `70_reset_and_hazards.md`, the registers after power-on (R330, with the power-on column of
R48). -/

namespace Sys2Proof.Machine

/-- Settles O57: the reset state is built of the power-on context, the cleared search registers and the
power-on substrate, whose fields are those of the column. -/
theorem powerOnState : Obligations.PowerOnState := by
  simp [Obligations.PowerOnState, State.reset, Ctx.powerOn, Srch.clear, Sub.powerOn]

end Sys2Proof.Machine
end
